-- ==== Sys2Proof/Word.lean ====
section
/-! DEFINITION. The words of the block (00_scope.md rules R5, R7, R8): data bytes, 16-bit words and the widths of
the decoder's fields (30_encoding.md rule R72). Every value is unsigned. -/

namespace Sys2Proof

/-- An 8-bit data value: V0 to VF, DT, ST, one byte of memory (R5, V_WIDTH and TIMER_WIDTH). -/
abbrev Byte := BitVec 8

/-- A 16-bit word: an instruction word, I, pc, a stack entry (R5, I_WIDTH, PC_WIDTH, STACK_ENTRY_WIDTH). -/
abbrev Word := BitVec 16

/-- A register index or any other 4-bit field: x, y and n (R72). -/
abbrev Nibble := BitVec 4

/-- A 12-bit address immediate: nnn (R72). -/
abbrev Addr := BitVec 12

end Sys2Proof
end

