-- ==== Sys2Proof/Syntax.lean ====
section
/-! DEFINITION. The typed instruction of 30_encoding.md rule R74: one constructor per row of the opcode table, in
the table's order, with the fields of rule R72. The 36th constructor of rule R74, Unknown(op), is no instruction:
it stands in `Decoded`, what the decoder answers. -/

namespace Sys2Proof

/-- The 35 instructions. x and y are register indices, n a count, kk a byte, nnn a 12-bit address. -/
inductive Instr where
  /-- 0nnn except 00E0 and 00EE, SYS nnn (R100) -/
  | sys (nnn : Addr)
  /-- 00E0, CLS (R141) -/
  | clearScreen
  /-- 00EE, RET (R101) -/
  | ret
  /-- 1nnn, JP nnn (R102) -/
  | jump (nnn : Addr)
  /-- 2nnn, CALL nnn (R103) -/
  | call (nnn : Addr)
  /-- 3xkk, SE Vx, kk (R104) -/
  | skipEqImm (x : Nibble) (kk : Byte)
  /-- 4xkk, SNE Vx, kk (R105) -/
  | skipNeImm (x : Nibble) (kk : Byte)
  /-- 5xy0, SE Vx, Vy (R106) -/
  | skipEqReg (x y : Nibble)
  /-- 6xkk, LD Vx, kk (R120) -/
  | loadImmediate (x : Nibble) (kk : Byte)
  /-- 7xkk, ADD Vx, kk (R121) -/
  | addImmediate (x : Nibble) (kk : Byte)
  /-- 8xy0, LD Vx, Vy (R122) -/
  | loadReg (x y : Nibble)
  /-- 8xy1, OR Vx, Vy (R123) -/
  | orReg (x y : Nibble)
  /-- 8xy2, AND Vx, Vy (R124) -/
  | andReg (x y : Nibble)
  /-- 8xy3, XOR Vx, Vy (R125) -/
  | xorReg (x y : Nibble)
  /-- 8xy4, ADD Vx, Vy (R126) -/
  | addVxVy (x y : Nibble)
  /-- 8xy5, SUB Vx, Vy (R127) -/
  | subVxVy (x y : Nibble)
  /-- 8xy6, SHR Vx, with y decoded and ignored (R128) -/
  | shiftRight (x y : Nibble)
  /-- 8xy7, SUBN Vx, Vy (R129) -/
  | subNVxVy (x y : Nibble)
  /-- 8xyE, SHL Vx, with y decoded and ignored (R130) -/
  | shiftLeft (x y : Nibble)
  /-- 9xy0, SNE Vx, Vy (R107) -/
  | skipNeReg (x y : Nibble)
  /-- Annn, LD I, nnn (R160) -/
  | loadIndex (nnn : Addr)
  /-- Bnnn, JP V0, nnn (R108) -/
  | jumpOffset (nnn : Addr)
  /-- Cxkk, RND Vx, kk (R131) -/
  | random (x : Nibble) (kk : Byte)
  /-- Dxyn, DRW Vx, Vy, n (R142) -/
  | draw (x y n : Nibble)
  /-- Ex9E, SKP Vx (R150) -/
  | skipKeyPressed (x : Nibble)
  /-- ExA1, SKNP Vx (R151) -/
  | skipKeyNotPressed (x : Nibble)
  /-- Fx07, LD Vx, DT (R170) -/
  | loadDelay (x : Nibble)
  /-- Fx0A, LD Vx, K (R152) -/
  | waitKey (x : Nibble)
  /-- Fx15, LD DT, Vx (R171) -/
  | setDelay (x : Nibble)
  /-- Fx18, LD ST, Vx (R172) -/
  | setSound (x : Nibble)
  /-- Fx1E, ADD I, Vx (R161) -/
  | addIndex (x : Nibble)
  /-- Fx29, LD F, Vx (R162) -/
  | loadFont (x : Nibble)
  /-- Fx33, LD B, Vx (R163) -/
  | storeBcd (x : Nibble)
  /-- Fx55, LD [I], Vx (R164) -/
  | storeRegs (x : Nibble)
  /-- Fx65, LD Vx, [I] (R165) -/
  | loadRegs (x : Nibble)
  deriving DecidableEq, Repr

/-- What the decoder answers (R74): one of the 35 instructions, or Unknown(op). -/
inductive Decoded where
  | known (i : Instr)
  | unknown (op : Word)
  deriving DecidableEq, Repr

/-- Why a run of bytes is not an instruction. -/
inductive DecodeError where
  /-- fewer than the two bytes every instruction takes (R70) -/
  | truncated
  /-- the first word matches no row of the opcode table (R76) -/
  | unknownOpcode (op : Word)
  deriving DecidableEq, Repr

/-- One row of the opcode map of rule R79: a word w selects it when w & mask = pattern and w is not excluded. -/
structure OpcodeRow where
  tag : Nat
  pattern : Word
  mask : Word
  excluded : List Word
  deriving DecidableEq, Repr

/-- The decoder's output bundle, seen as hardware (R78). -/
structure DecoderSignals where
  tag : BitVec 6
  x : Nibble
  y : Nibble
  n : Nibble
  kk : Byte
  nnn : Addr
  unknown : Bool
  deriving DecidableEq, Repr

end Sys2Proof
end

