-- ==== Sys2Proof/WellFormed.lean ====
section
/-! DEFINITION. Which terms of `Instr` are instructions of the block. The field widths are in the types, so one check
is left: Sys(nnn) with nnn = 0x0E0 or 0x0EE cannot be built, because those words are CLS and RET
(30_encoding.md rule R84). -/

namespace Sys2Proof

/-- nnn is a legal field of Sys (R84). -/
def sysOperandOk (nnn : Addr) : Bool := nnn != 0x0E0#12 && nnn != 0x0EE#12

/-- The instruction is one that some word encodes (R84). -/
def Instr.wellFormed : Instr → Bool
  | .sys nnn => sysOperandOk nnn
  | .clearScreen => true
  | .ret => true
  | .jump _ => true
  | .call _ => true
  | .skipEqImm _ _ => true
  | .skipNeImm _ _ => true
  | .skipEqReg _ _ => true
  | .loadImmediate _ _ => true
  | .addImmediate _ _ => true
  | .loadReg _ _ => true
  | .orReg _ _ => true
  | .andReg _ _ => true
  | .xorReg _ _ => true
  | .addVxVy _ _ => true
  | .subVxVy _ _ => true
  | .shiftRight _ _ => true
  | .subNVxVy _ _ => true
  | .shiftLeft _ _ => true
  | .skipNeReg _ _ => true
  | .loadIndex _ => true
  | .jumpOffset _ => true
  | .random _ _ => true
  | .draw _ _ _ => true
  | .skipKeyPressed _ => true
  | .skipKeyNotPressed _ => true
  | .loadDelay _ => true
  | .waitKey _ => true
  | .setDelay _ => true
  | .setSound _ => true
  | .addIndex _ => true
  | .loadFont _ => true
  | .storeBcd _ => true
  | .storeRegs _ => true
  | .loadRegs _ => true

end Sys2Proof
end

