-- ==== Sys2Proof/Decode.lean ====
section
/-! DEFINITION. The decoder (30_encoding.md rules R70 to R79) as a pure total function of a 16-bit word, the same on
any run of bytes, the opcode map as data (rule R79), the decoder's signals (rule R78), and after them the encoder
(rule R84). The match values are UNVERIFIED where the spec marks them as general knowledge
(notes/assumptions/9.md). -/

namespace Sys2Proof

/-! ### The fields of rule R72 -/

/-- The primary selector op[15:12]. -/
def fieldT (op : Word) : Nibble := op.extractLsb' 12 4
/-- x = op[11:8]. -/
def fieldX (op : Word) : Nibble := op.extractLsb' 8 4
/-- y = op[7:4]. -/
def fieldY (op : Word) : Nibble := op.extractLsb' 4 4
/-- n = op[3:0]. -/
def fieldN (op : Word) : Nibble := op.extractLsb' 0 4
/-- kk = op[7:0]. -/
def fieldKk (op : Word) : Byte := op.extractLsb' 0 8
/-- nnn = op[11:0]. -/
def fieldNnn (op : Word) : Addr := op.extractLsb' 0 12

/-! ### The decoder of rule R75, group by group -/

/-- Group 0: CLS, RET, and Sys for every other word (R75, D11). -/
def decodeGroup0 (op : Word) : Decoded :=
  if op = 0x00E0#16 then .known .clearScreen
  else if op = 0x00EE#16 then .known .ret
  else .known (.sys (fieldNnn op))

/-- Groups 5 and 9: the function nibble must be 0 (R75, D12). -/
def decodeStrict (op : Word) (mk : Nibble → Nibble → Instr) : Decoded :=
  if fieldN op = 0x0#4 then .known (mk (fieldX op) (fieldY op)) else .unknown op

/-- Group 8: the function nibble selects (R75). -/
def decodeGroup8 (op : Word) : Decoded :=
  let x := fieldX op
  let y := fieldY op
  match fieldN op with
  | 0x0#4 => .known (.loadReg x y)
  | 0x1#4 => .known (.orReg x y)
  | 0x2#4 => .known (.andReg x y)
  | 0x3#4 => .known (.xorReg x y)
  | 0x4#4 => .known (.addVxVy x y)
  | 0x5#4 => .known (.subVxVy x y)
  | 0x6#4 => .known (.shiftRight x y)
  | 0x7#4 => .known (.subNVxVy x y)
  | 0xE#4 => .known (.shiftLeft x y)
  | _ => .unknown op

/-- Group E: the function byte selects (R75). -/
def decodeGroupE (op : Word) : Decoded :=
  match fieldKk op with
  | 0x9E#8 => .known (.skipKeyPressed (fieldX op))
  | 0xA1#8 => .known (.skipKeyNotPressed (fieldX op))
  | _ => .unknown op

/-- Group F: the function byte selects (R75). -/
def decodeGroupF (op : Word) : Decoded :=
  let x := fieldX op
  match fieldKk op with
  | 0x07#8 => .known (.loadDelay x)
  | 0x0A#8 => .known (.waitKey x)
  | 0x15#8 => .known (.setDelay x)
  | 0x18#8 => .known (.setSound x)
  | 0x1E#8 => .known (.addIndex x)
  | 0x29#8 => .known (.loadFont x)
  | 0x33#8 => .known (.storeBcd x)
  | 0x55#8 => .known (.storeRegs x)
  | 0x65#8 => .known (.loadRegs x)
  | _ => .unknown op

/-- The decoder of rule R75. -/
def decode (op : Word) : Decoded :=
  let x := fieldX op
  let kk := fieldKk op
  let nnn := fieldNnn op
  match fieldT op with
  | 0x0#4 => decodeGroup0 op
  | 0x1#4 => .known (.jump nnn)
  | 0x2#4 => .known (.call nnn)
  | 0x3#4 => .known (.skipEqImm x kk)
  | 0x4#4 => .known (.skipNeImm x kk)
  | 0x5#4 => decodeStrict op .skipEqReg
  | 0x6#4 => .known (.loadImmediate x kk)
  | 0x7#4 => .known (.addImmediate x kk)
  | 0x8#4 => decodeGroup8 op
  | 0x9#4 => decodeStrict op .skipNeReg
  | 0xA#4 => .known (.loadIndex nnn)
  | 0xB#4 => .known (.jumpOffset nnn)
  | 0xC#4 => .known (.random x kk)
  | 0xD#4 => .known (.draw x (fieldY op) (fieldN op))
  | 0xE#4 => decodeGroupE op
  | _ => decodeGroupF op

/-- A word from its two bytes: the byte at the lower address is the high byte (20_memory.md rule R53). -/
def wordOfBytes (hi lo : Byte) : Word := hi ++ lo

/-- The high byte of a word, the one at the lower address (R53). -/
def highByte (w : Word) : Byte := w.extractLsb' 8 8

/-- The low byte of a word (R53). -/
def lowByte (w : Word) : Byte := w.extractLsb' 0 8

/-- The decoder on any run of bytes: the first instruction and the bytes after it, or why there is none. -/
def decodeBytes : List Byte → Except DecodeError (Instr × List Byte)
  | hi :: lo :: rest =>
    match decode (wordOfBytes hi lo) with
    | .known i => .ok (i, rest)
    | .unknown op => .error (.unknownOpcode op)
  | [_] => .error .truncated
  | [] => .error .truncated

/-- The word that the opcode table numbers: nbits bits of w, every bit above them 0, cut to the one word an
instruction has (R70). -/
def tableWord (nbits w : Nat) : Word := BitVec.ofNat 16 (w % 2 ^ nbits)

/-- The instruction the decoder reads from an instruction whose bits are w, numbered as the opcode table numbers
them (bit 0 the least significant bit of the word), its two bytes laid out as memory holds them (R53). -/
def decodeTableWord (nbits w : Nat) : Option Instr :=
  match decodeBytes [highByte (tableWord nbits w), lowByte (tableWord nbits w)] with
  | .ok (i, _) => some i
  | .error _ => none

/-! ### The opcode map (R79) and the decoder's signals (R78) -/

/-- The constructor's number in rule R74, 0 to 34. -/
def Instr.tag : Instr → Nat
  | .sys _ => 0
  | .clearScreen => 1
  | .ret => 2
  | .jump _ => 3
  | .call _ => 4
  | .skipEqImm _ _ => 5
  | .skipNeImm _ _ => 6
  | .skipEqReg _ _ => 7
  | .loadImmediate _ _ => 8
  | .addImmediate _ _ => 9
  | .loadReg _ _ => 10
  | .orReg _ _ => 11
  | .andReg _ _ => 12
  | .xorReg _ _ => 13
  | .addVxVy _ _ => 14
  | .subVxVy _ _ => 15
  | .shiftRight _ _ => 16
  | .subNVxVy _ _ => 17
  | .shiftLeft _ _ => 18
  | .skipNeReg _ _ => 19
  | .loadIndex _ => 20
  | .jumpOffset _ => 21
  | .random _ _ => 22
  | .draw _ _ _ => 23
  | .skipKeyPressed _ => 24
  | .skipKeyNotPressed _ => 25
  | .loadDelay _ => 26
  | .waitKey _ => 27
  | .setDelay _ => 28
  | .setSound _ => 29
  | .addIndex _ => 30
  | .loadFont _ => 31
  | .storeBcd _ => 32
  | .storeRegs _ => 33
  | .loadRegs _ => 34

/-- The number of what the decoder answered: 35 for Unknown (R74). -/
def decodedTag : Decoded → Nat
  | .known i => i.tag
  | .unknown _ => 35

/-- Rows 0 to 18 of the opcode map (R79). -/
def opcodeRowsLow : List OpcodeRow :=
  [⟨0, 0x0000#16, 0xF000#16, [0x00E0#16, 0x00EE#16]⟩,
   ⟨1, 0x00E0#16, 0xFFFF#16, []⟩,
   ⟨2, 0x00EE#16, 0xFFFF#16, []⟩,
   ⟨3, 0x1000#16, 0xF000#16, []⟩,
   ⟨4, 0x2000#16, 0xF000#16, []⟩,
   ⟨5, 0x3000#16, 0xF000#16, []⟩,
   ⟨6, 0x4000#16, 0xF000#16, []⟩,
   ⟨7, 0x5000#16, 0xF00F#16, []⟩,
   ⟨8, 0x6000#16, 0xF000#16, []⟩,
   ⟨9, 0x7000#16, 0xF000#16, []⟩] ++
  [⟨10, 0x8000#16, 0xF00F#16, []⟩,
   ⟨11, 0x8001#16, 0xF00F#16, []⟩,
   ⟨12, 0x8002#16, 0xF00F#16, []⟩,
   ⟨13, 0x8003#16, 0xF00F#16, []⟩,
   ⟨14, 0x8004#16, 0xF00F#16, []⟩,
   ⟨15, 0x8005#16, 0xF00F#16, []⟩,
   ⟨16, 0x8006#16, 0xF00F#16, []⟩,
   ⟨17, 0x8007#16, 0xF00F#16, []⟩,
   ⟨18, 0x800E#16, 0xF00F#16, []⟩]

/-- Rows 19 to 34 of the opcode map (R79). -/
def opcodeRowsHigh : List OpcodeRow :=
  [⟨19, 0x9000#16, 0xF00F#16, []⟩,
   ⟨20, 0xA000#16, 0xF000#16, []⟩,
   ⟨21, 0xB000#16, 0xF000#16, []⟩,
   ⟨22, 0xC000#16, 0xF000#16, []⟩,
   ⟨23, 0xD000#16, 0xF000#16, []⟩,
   ⟨24, 0xE09E#16, 0xF0FF#16, []⟩,
   ⟨25, 0xE0A1#16, 0xF0FF#16, []⟩] ++
  [⟨26, 0xF007#16, 0xF0FF#16, []⟩,
   ⟨27, 0xF00A#16, 0xF0FF#16, []⟩,
   ⟨28, 0xF015#16, 0xF0FF#16, []⟩,
   ⟨29, 0xF018#16, 0xF0FF#16, []⟩,
   ⟨30, 0xF01E#16, 0xF0FF#16, []⟩,
   ⟨31, 0xF029#16, 0xF0FF#16, []⟩,
   ⟨32, 0xF033#16, 0xF0FF#16, []⟩,
   ⟨33, 0xF055#16, 0xF0FF#16, []⟩,
   ⟨34, 0xF065#16, 0xF0FF#16, []⟩]

/-- The opcode map of rule R79, one row per constructor 0 to 34. -/
def opcodeTable : List OpcodeRow := opcodeRowsLow ++ opcodeRowsHigh

/-- The word selects the row (R79). -/
def rowSelects (row : OpcodeRow) (w : Word) : Bool :=
  (w &&& row.mask) == row.pattern && !row.excluded.contains w

/-- The decoder's output bundle (R78): the fields are always driven, whatever the tag. -/
def decoderSignals (op : Word) : DecoderSignals :=
  { tag := BitVec.ofNat 6 (decodedTag (decode op)), x := fieldX op, y := fieldY op, n := fieldN op,
    kk := fieldKk op, nnn := fieldNnn op, unknown := decodedTag (decode op) == 35 }

/-! ### The encoder (R84), from the formats of rule R73 and the patterns of rule R74 -/

/-- Format NNN: `tttt nnnn nnnn nnnn`. -/
def formatNNN (t : Nibble) (nnn : Addr) : Word := t ++ nnn
/-- Format XKK: `tttt xxxx kkkk kkkk`. -/
def formatXKK (t x : Nibble) (kk : Byte) : Word := (t ++ x : BitVec 8) ++ kk
/-- Formats XYF and XYN: `tttt xxxx yyyy ffff`. -/
def formatXYF (t x y f : Nibble) : Word := (t ++ x : BitVec 8) ++ (y ++ f : BitVec 8)

/-- The word of a well-formed instruction (R84). -/
def encode : Instr → Word
  | .sys nnn => formatNNN 0x0#4 nnn
  | .clearScreen => 0x00E0#16
  | .ret => 0x00EE#16
  | .jump nnn => formatNNN 0x1#4 nnn
  | .call nnn => formatNNN 0x2#4 nnn
  | .skipEqImm x kk => formatXKK 0x3#4 x kk
  | .skipNeImm x kk => formatXKK 0x4#4 x kk
  | .skipEqReg x y => formatXYF 0x5#4 x y 0x0#4
  | .loadImmediate x kk => formatXKK 0x6#4 x kk
  | .addImmediate x kk => formatXKK 0x7#4 x kk
  | .loadReg x y => formatXYF 0x8#4 x y 0x0#4
  | .orReg x y => formatXYF 0x8#4 x y 0x1#4
  | .andReg x y => formatXYF 0x8#4 x y 0x2#4
  | .xorReg x y => formatXYF 0x8#4 x y 0x3#4
  | .addVxVy x y => formatXYF 0x8#4 x y 0x4#4
  | .subVxVy x y => formatXYF 0x8#4 x y 0x5#4
  | .shiftRight x y => formatXYF 0x8#4 x y 0x6#4
  | .subNVxVy x y => formatXYF 0x8#4 x y 0x7#4
  | .shiftLeft x y => formatXYF 0x8#4 x y 0xE#4
  | .skipNeReg x y => formatXYF 0x9#4 x y 0x0#4
  | .loadIndex nnn => formatNNN 0xA#4 nnn
  | .jumpOffset nnn => formatNNN 0xB#4 nnn
  | .random x kk => formatXKK 0xC#4 x kk
  | .draw x y n => formatXYF 0xD#4 x y n
  | .skipKeyPressed x => formatXKK 0xE#4 x 0x9E#8
  | .skipKeyNotPressed x => formatXKK 0xE#4 x 0xA1#8
  | .loadDelay x => formatXKK 0xF#4 x 0x07#8
  | .waitKey x => formatXKK 0xF#4 x 0x0A#8
  | .setDelay x => formatXKK 0xF#4 x 0x15#8
  | .setSound x => formatXKK 0xF#4 x 0x18#8
  | .addIndex x => formatXKK 0xF#4 x 0x1E#8
  | .loadFont x => formatXKK 0xF#4 x 0x29#8
  | .storeBcd x => formatXKK 0xF#4 x 0x33#8
  | .storeRegs x => formatXKK 0xF#4 x 0x55#8
  | .loadRegs x => formatXKK 0xF#4 x 0x65#8

/-- The two bytes of an instruction as memory holds them, the high byte first (R53, R84). -/
def encodeBytes (i : Instr) : List Byte := [highByte (encode i), lowByte (encode i)]

end Sys2Proof
end

