-- ==== Sys2Proof/Machine/Font.lean ====
section
/-! DEFINITION. FONT, the 80 bytes at 0x000 to 0x04F (70_reset_and_hazards.md rules R232 to R234): the parameter's
default value, the spec's recommended table (notes/assumptions/7.md). -/

namespace Sys2Proof.Machine

/-- Glyphs 0 to 7, five rows each from the top (R234). -/
def fontGlyphsLow : List Byte :=
  [0xF0#8, 0x90#8, 0x90#8, 0x90#8, 0xF0#8] ++ [0x20#8, 0x60#8, 0x20#8, 0x20#8, 0x70#8] ++
  [0xF0#8, 0x10#8, 0xF0#8, 0x80#8, 0xF0#8] ++ [0xF0#8, 0x10#8, 0xF0#8, 0x10#8, 0xF0#8] ++
  [0x90#8, 0x90#8, 0xF0#8, 0x10#8, 0x10#8] ++ [0xF0#8, 0x80#8, 0xF0#8, 0x10#8, 0xF0#8] ++
  [0xF0#8, 0x80#8, 0xF0#8, 0x90#8, 0xF0#8] ++ [0xF0#8, 0x10#8, 0x20#8, 0x40#8, 0x40#8]

/-- Glyphs 8 to F (R234). -/
def fontGlyphsHigh : List Byte :=
  [0xF0#8, 0x90#8, 0xF0#8, 0x90#8, 0xF0#8] ++ [0xF0#8, 0x90#8, 0xF0#8, 0x10#8, 0xF0#8] ++
  [0xF0#8, 0x90#8, 0xF0#8, 0x90#8, 0x90#8] ++ [0xE0#8, 0x90#8, 0xE0#8, 0x90#8, 0xE0#8] ++
  [0xF0#8, 0x80#8, 0x80#8, 0x80#8, 0xF0#8] ++ [0xE0#8, 0x90#8, 0x90#8, 0x90#8, 0xE0#8] ++
  [0xF0#8, 0x80#8, 0xF0#8, 0x80#8, 0xF0#8] ++ [0xF0#8, 0x80#8, 0xF0#8, 0x80#8, 0x80#8]

/-- FONT at its default: glyph d occupies bytes d*5 to d*5 + 4 (R232). -/
def defaultFont : List Byte := fontGlyphsLow ++ fontGlyphsHigh

end Sys2Proof.Machine
end

