-- ==== Sys2Proof/Config.lean ====
section
/-! DEFINITION. The implementation parameters (00_scope.md rules R5 and R6). The sizes are fixed by the spec; the
random byte, the instruction rate and the override of the timer rate are open, so they have no body. FONT, the fourth
open parameter, is the argument of State.resetWith (Machine/Boot.lean), and its default, the spec's recommended table,
stands in Machine/Font.lean. -/

namespace Sys2Proof.Config

/-- MEM_SIZE: addresses 0x000 to 0xFFF (R5). -/
@[simp] abbrev memSize : Nat := 4096

/-- STACK_DEPTH (R5). -/
@[simp] abbrev stackDepth : Nat := 16

/-- DISPLAY_W (R5). -/
@[simp] abbrev displayW : Nat := 64

/-- DISPLAY_H (R5). -/
@[simp] abbrev displayH : Nat := 32

/-- PROG_START, the reset vector and the place of the ROM image (R5). -/
@[simp] abbrev progStart : Nat := 0x200

/-- MAX_ROM = 4096 - 0x200 = 3584 bytes (R5). -/
@[simp] abbrev maxRom : Nat := 3584

/-- RNG (R6, 92_eei_decisions.md D24): the random byte of the k-th STEP whose byte the host schedule does not spell
out. A free value: nothing constrains it (notes/assumptions/2.md). -/
opaque randomByte : Nat → Byte

/-- INSTR_RATE in instructions per second (R6, R241). No rule of the block depends on it: it is free and nothing
in the model reads it (notes/assumptions/14.md). -/
opaque instrRate : Nat

/-- The default of TIMER_RATE, in hertz (R5). -/
def defaultTimerRate : Nat := 60

/-- The timer-rate override of R6, in hertz, none where there is none. It is open (D29), so free: nothing constrains
it (notes/assumptions/14.md). -/
opaque timerRateOverride : Option Nat

/-- TIMER_RATE in hertz: the override where one is given, else the default (R6, R174). No rule of the block depends on
it: it binds the host's TICK schedule and nothing in the model reads it (notes/assumptions/14.md). -/
def timerRate : Nat := timerRateOverride.getD defaultTimerRate

end Sys2Proof.Config
end

