-- ==== Sys2Proof/Machine/State.lean ====
section
/-! DEFINITION. The state of the block: the complete list of 10_state.md rule R38, and beside it the interface of
rules R40 to R46 held as plain data (the coming transactions, the latched random byte, the result port, the boot
phase), so that one step function without arguments can show every interleaving of rule R47. -/

namespace Sys2Proof.Machine

/-- What a STEP returns (60_exceptions.md rule R200), with the info it records. -/
inductive StepResult where
  /-- code 0 -/
  | ok
  /-- code 1: the fetched word and the fetch address -/
  | unknownOpcode (op p : Word)
  /-- code 2: the address of the CALL -/
  | stackOverflow (p : Word)
  /-- code 3: the address of the RET -/
  | stackUnderflow (p : Word)
  deriving DecidableEq, Repr

/-- Whether the LOAD of the boot sequence may still come (70_reset_and_hazards.md rules R235 and R236):
it happens once, after reset and before the first STEP (notes/assumptions/4.md). -/
inductive BootPhase where
  | awaitingLoad
  | started
  deriving DecidableEq, Repr

/-- The four input transactions of 10_state.md rule R40. -/
inductive Transaction where
  /-- STEP(r), r the random byte Cxkk reads (R41) -/
  | step (r : Byte)
  /-- TICK(n) (R42) -/
  | tick (n : BitVec 32)
  /-- KEYS(k), bit j of k for key j (R43) -/
  | keys (k : BitVec 16)
  /-- LOAD(bytes) (R46) -/
  | load (image : List Byte)
  deriving DecidableEq, Repr

/-- Memory: the bytes that differ from what reset put there, by rising address (notes/assumptions/5.md). -/
abbrev Memory := List Host.Cell

/-- The state. The first twelve fields are the spec's (R38); the others are its interface (R40, R41, R200, R235). -/
structure State where
  /-- V0 to VF (R20) -/
  v : Vector Byte 16
  /-- I (R27) -/
  i : Word
  /-- the program counter (R24) -/
  pc : Word
  /-- the return addresses (R28) -/
  stack : Vector Word 16
  /-- frames in use (R28) -/
  sp : Byte
  /-- the delay timer (R30) -/
  dt : Byte
  /-- the sound timer (R30) -/
  st : Byte
  /-- the 4096 bytes (R50) -/
  mem : Memory
  /-- the pixel buffer, pixel (x, y) at bit y*64 + x (R34) -/
  pix : BitVec 2048
  /-- the key snapshot, bit k for key k (R33) -/
  keys : BitVec 16
  /-- W, waiting_for_key (R31) -/
  w : Option Nibble
  /-- prev_keys (R32) -/
  prevKeys : BitVec 16
  /-- the random byte of the STEP under way (R41; notes/assumptions/2.md) -/
  r : Byte
  /-- how many free random bytes have been drawn: the model's own counter (notes/assumptions/2.md) -/
  draws : Nat
  /-- the result port of the last STEP (R200; notes/assumptions/3.md) -/
  result : StepResult
  /-- whether LOAD may still come (R235; notes/assumptions/4.md) -/
  phase : BootPhase
  /-- the host's coming transactions, the next one first (R47; notes/assumptions/1.md) -/
  schedule : List Transaction
  deriving DecidableEq, Repr

/-- Why the machine stops with a fault. -/
inductive Fault where
  /-- Raised by LOAD of an image longer than 3584 bytes: fatal at load, nothing written, no STEP follows
  (60_exceptions.md rule R203, 70_reset_and_hazards.md rule R236). As the spec says, so safe. -/
  | romTooLarge
  /-- Raised by CALL and RET where sp is above 16, which rule R36 calls unreachable and gives no effect. Safe: no
  state that meets the invariant of Safety.lean reaches it (notes/assumptions/6.md). -/
  | stackPointerOutOfRange
  deriving DecidableEq, Repr

/-- Why the machine refuses to go on. -/
inductive Refusal where
  /-- Raised by an arm of exec whose instruction has no meaning yet. Safe. -/
  | notModelled (mnemonic : String)
  /-- Raised by a LOAD that comes after a LOAD or a STEP: the spec says it happens once, before the first STEP, and
  gives it no other effect (R236; notes/assumptions/4.md). Safe. -/
  | loadOutOfSequence
  deriving DecidableEq, Repr

/-- The state right after reset (R38, R230, R231). Memory lists nothing: every byte is at its reset contents, FONT
at 0x000 to 0x04F and 0 elsewhere. The last five fields are the model's own choice (notes/assumptions/1.md to 4.md). -/
def State.reset : State where
  v := Vector.replicate 16 0#8
  i := 0x0000#16
  pc := 0x0200#16
  stack := Vector.replicate 16 0#16
  sp := 0#8
  dt := 0#8
  st := 0#8
  mem := []
  pix := 0#2048
  keys := 0#16
  w := none
  prevKeys := 0#16
  r := 0#8
  draws := 0
  result := .ok
  phase := .awaitingLoad
  schedule := []

end Sys2Proof.Machine
end

