-- ==== Sys2Proof/Machine/Ops.lean ====
section
/-! DEFINITION. The named operations over registers, memory, stack, pixels and the result port. Every meaning goes
through them. Errors are raised by `raise`, the one operation of 60_exceptions.md rules R200 and R201; the block has
no trap entry and no return from one (rule R208), so there is no second operation beside it. -/

namespace Sys2Proof.Machine

/-! ### Memory (20_memory.md) -/

/-- What reset put at an address (R60): FONT at 0x000 to 0x04F, 0 elsewhere. It is what an unlisted address reads
as (notes/assumptions/5.md). -/
def initialByte (a : Nat) : Byte := defaultFont.getD a 0#8

/-- The byte at an address below 4096 (R57). -/
def Memory.read : Memory → Nat → Byte
  | [], a => initialByte a
  | (b, c) :: m, a => if a = b then c else Memory.read m a

/-- A new first cell, left out where it holds what reset put there. -/
def Memory.cons (a : Nat) (c : Byte) (m : Memory) : Memory :=
  if c = initialByte a then m else (a, c) :: m

/-- Memory with one byte written (R57), in canonical form. -/
def Memory.write : Memory → Nat → Byte → Memory
  | [], a, c => Memory.cons a c []
  | (b, d) :: m, a, c =>
    if a < b then Memory.cons a c ((b, d) :: m)
    else if a = b then Memory.cons a c m
    else (b, d) :: Memory.write m a c

/-- The canonical form: addresses strictly rising and below 4096, no byte equal to its reset contents. -/
abbrev Memory.wf (m : Memory) : Prop :=
  m.Pairwise (fun c d => c.1 < d.1) ∧ ∀ c ∈ m, c.1 < Config.memSize ∧ c.2 ≠ initialByte c.1

/-- Every memory address is reduced mod 4096 (R52). -/
def wrapAddr (a : Nat) : Nat := a % Config.memSize

/-- MemRead(a mod 4096, 1) (00_scope.md R9, R52). -/
def State.readByte (s : State) (a : Nat) : Byte := Memory.read s.mem (wrapAddr a)

/-- MemWrite(a mod 4096, 1, c) (00_scope.md R9, R52). -/
def State.writeByte (s : State) (a : Nat) (c : Byte) : State :=
  { s with mem := Memory.write s.mem (wrapAddr a) c }

/-- Bytes written at a, a+1, ..., each address reduced mod 4096. -/
def State.writeBytes (s : State) (a : Nat) : List Byte → State
  | [] => s
  | c :: cs => State.writeBytes (s.writeByte a c) (a + 1) cs

/-! ### Registers (10_state.md) -/

/-- V[x] (R20). -/
def State.getV (s : State) (x : Nibble) : Byte := s.v[x.toNat]'x.isLt

/-- V[x] <- c (R20). -/
def State.setV (s : State) (x : Nibble) (c : Byte) : State := { s with v := s.v.set x.toNat c x.isLt }

/-- VF, register 15 (R21). -/
abbrev vf : Nibble := 15#4

/-- I <- a (R27). -/
def State.setI (s : State) (a : Word) : State := { s with i := a }

/-- pc <- a (R24). -/
def State.setPc (s : State) (a : Word) : State := { s with pc := a }

/-- DT <- c (R30). -/
def State.setDt (s : State) (c : Byte) : State := { s with dt := c }

/-- ST <- c (R30). -/
def State.setSt (s : State) (c : Byte) : State := { s with st := c }

/-- W <- o (R31). -/
def State.setW (s : State) (o : Option Nibble) : State := { s with w := o }

/-- keys <- k (R33). -/
def State.setKeys (s : State) (k : BitVec 16) : State := { s with keys := k }

/-- pix <- p (R34). -/
def State.setPix (s : State) (p : BitVec 2048) : State := { s with pix := p }

/-! ### The program counter (R24, R25) -/

/-- (p + k) mod 4096 (R24, 20_memory.md R52). -/
def pcAdd (p : Word) (k : Nat) : Word := BitVec.ofNat 16 ((p.toNat + k) % Config.memSize)

/-- "Advance": pc <- (pc + 2) mod 4096 (00_scope.md R10). -/
def State.advance (s : State) : State := s.setPc (pcAdd s.pc 2)

/-- "Skip" when the condition holds, "Advance" otherwise (00_scope.md R10, 41_control_flow.md R110). -/
def State.skipIf (s : State) (c : Bool) : State := if c then s.setPc (pcAdd s.pc 4) else s.advance

/-! ### The call stack (R28, R29) -/

/-- PUSH: none is overflow (R29). -/
def State.push (s : State) (a : Word) : Option State :=
  if h : s.sp.toNat < Config.stackDepth then
    some { s with stack := s.stack.set s.sp.toNat a h, sp := s.sp + 1#8 }
  else none

/-- POP: none is underflow (R29). -/
def State.pop (s : State) : Option (State × Word) :=
  if h : 0 < s.sp.toNat ∧ s.sp.toNat ≤ Config.stackDepth then
    some ({ s with sp := s.sp - 1#8 }, s.stack[s.sp.toNat - 1]'(by simp only [Config.stackDepth] at h; omega))
  else none

/-- sp is a legal value (R36). -/
def State.spLegal (s : State) : Bool := decide (s.sp.toNat ≤ Config.stackDepth)

/-! ### The result port (60_exceptions.md) -/

/-- The numeric code of a STEP result (R200). -/
def resultCode : StepResult → Nat
  | .ok => 0
  | .unknownOpcode _ _ => 1
  | .stackOverflow _ => 2
  | .stackUnderflow _ => 3

/-- `raise E(info)`: the error goes to the result port, and nothing else changes (00_scope.md R9, R200, R201). -/
def State.raise (s : State) (e : StepResult) : State := { s with result := e }

/-! ### The framebuffer write port (43_display.md R140) -/

/-- The linear index of pixel (px, py) (10_state.md R34). -/
def pixelIndex (px py : Nat) : Nat := py * Config.displayW + px

/-- pix[py][px]. -/
def pixelOf (p : BitVec 2048) (px py : Nat) : Bool := p.getLsbD (pixelIndex px py)

/-- FB_XOR without its answer: the pixel is inverted (R140). -/
def fbXor (p : BitVec 2048) (px py : Nat) : BitVec 2048 := p ^^^ BitVec.twoPow 2048 (pixelIndex px py)

/-- FB_CLEAR (R140). -/
def fbClear : BitVec 2048 := 0#2048

/-! ### The outputs (10_state.md R44, R45) and the hardware view of W (R36) -/

/-- PIXELS at (x, y) (R44). -/
def State.pixel (s : State) (x y : Nat) : Bool := pixelOf s.pix x y

/-- SOUND (R45). -/
def State.sound (s : State) : Bool := s.st != 0#8

/-- W.valid (R36). -/
def State.waitValid (s : State) : Bool := s.w.isSome

/-- W.reg, 0 when W.valid is 0 (R36, D34). -/
def State.waitReg (s : State) : Nibble := s.w.getD 0#4

/-! ### Fetch (30_encoding.md R71) and placing a program -/

/-- The word at pc, big-endian (R71, 20_memory.md R53 and R56). -/
def State.fetchWord (s : State) : Word := wordOfBytes (s.readByte s.pc.toNat) (s.readByte (s.pc.toNat + 1))

/-- The word stored at pc as memory holds it (20_memory.md R53). -/
def State.placeWord (s : State) (op : Word) : State :=
  (s.writeByte s.pc.toNat (highByte op)).writeByte (s.pc.toNat + 1) (lowByte op)

/-- The outcome with one function applied to a next state. -/
def mapNext (f : State → State) : Host.Outcome State Fault Refusal → Host.Outcome State Fault Refusal
  | .next s => .next (f s)
  | .fault e => .fault e
  | .refused e => .refused e

end Sys2Proof.Machine
end

