-- ==== Sys2Proof/Machine/Operands.lean ====
section
/-! DEFINITION. The operand forms of the instruction rules: unsigned immediates (30_encoding.md rule R77), the low
nibble that names a key or a digit, addresses formed from I, the decimal digits of Fx33. -/

namespace Sys2Proof.Machine

/-- zext_16 of a 12-bit address (R77). -/
def zextAddr (nnn : Addr) : Word := nnn.zeroExtend 16

/-- zext_16 of a byte (R77). -/
def zextByte (c : Byte) : Word := c.zeroExtend 16

/-- zext_8 of a nibble: the key index that Fx0A stores (44_keys_wait.md R153). -/
def zextNibble (c : Nibble) : Byte := c.zeroExtend 8

/-- V[x] & 0xF: the key of Ex9E and ExA1, the digit of Fx29 (44_keys_wait.md R150, 45_index_memory.md R162). -/
def lowNibble (c : Byte) : Nibble := c.extractLsb' 0 4

/-- keys[k] (10_state.md R33). -/
def State.keyDown (s : State) (k : Nibble) : Bool := s.keys.getLsbD k.toNat

/-- The key that Vx names is pressed (44_keys_wait.md R150). -/
def State.keyOf (s : State) (x : Nibble) : Bool := s.keyDown (lowNibble (s.getV x))

/-- (I + k) mod 4096: the k-th address from I (20_memory.md R52, R54). -/
def State.indexAddr (s : State) (k : Nat) : Nat := wrapAddr (s.i.toNat + k)

/-- I + zext_16(c) mod 65536 (45_index_memory.md R161). -/
def indexAdd (a : Word) (c : Byte) : Word := a + zextByte c

/-- The address of the glyph of a digit: digit * 5 (45_index_memory.md R162). -/
def glyphAddr (c : Byte) : Word := BitVec.ofNat 16 ((lowNibble c).toNat * 5)

/-- (nnn + V0) mod 4096 (41_control_flow.md R108). -/
def offsetTarget (nnn : Addr) (c : Byte) : Word := BitVec.ofNat 16 ((nnn.toNat + c.toNat) % Config.memSize)

/-- v div 100 (45_index_memory.md R163). -/
def bcdHundreds (c : Byte) : Byte := BitVec.ofNat 8 (c.toNat / 100)

/-- (v div 10) mod 10 (R163). -/
def bcdTens (c : Byte) : Byte := BitVec.ofNat 8 (c.toNat / 10 % 10)

/-- v mod 10 (R163). -/
def bcdOnes (c : Byte) : Byte := BitVec.ofNat 8 (c.toNat % 10)

/-- The 4-bit index of loop counter k of Fx55 and Fx65 (45_index_memory.md R164, R165). -/
def regIndex (k : Nat) : Nibble := BitVec.ofNat 4 k

end Sys2Proof.Machine
end

