-- ==== Sys2Proof/Machine/Boot.lean ====
section
/-! DEFINITION. The boot sequence: the LOAD of the ROM image (70_reset_and_hazards.md rules R235 and R236,
60_exceptions.md rule R203), and reset with another FONT than the default (00_scope.md rule R6). -/

namespace Sys2Proof.Machine

/-- LOAD(bytes): the image at 0x200, once, before the first STEP. An image longer than 3584 bytes is rejected and
writes nothing, and no STEP follows; a LOAD out of its place is refused (R236, D31; notes/assumptions/4.md). -/
def loadTransaction (image : List Byte) (s : State) : Host.Outcome State Fault Refusal :=
  match s.phase with
  | .started => .refused .loadOutOfSequence
  | .awaitingLoad =>
    if image.length ≤ Config.maxRom then .next { s.writeBytes Config.progStart image with phase := .started }
    else .fault .romTooLarge

/-- Reset with FONT given as an argument (00_scope.md R6, 70_reset_and_hazards.md R232 and R234). -/
def State.resetWith (font : Vector Byte 80) : State := State.reset.writeBytes 0 font.toList

end Sys2Proof.Machine
end

