-- ==== Sys2Proof/Machine/Flags.lean ====
section
/-! DEFINITION. What the instructions put into VF (10_state.md rules R21 and R26), each computed from the operand
values before anything is written, and the one operation that writes a result and then its flag. -/

namespace Sys2Proof.Machine

/-- A Boolean stored in a register is 0 or 1 (00_scope.md R8). -/
def flagByte (b : Bool) : Byte := if b then 1#8 else 0#8

/-- 8xy4: the sum, computed wide, exceeds 255 (42_alu.md R126). -/
def carryOut (a b : Byte) : Bool := decide (a.toNat + b.toNat > 255)

/-- 8xy5 and 8xy7: no borrow in a - b, that is a ≥ b (R127, R129). -/
def noBorrow (a b : Byte) : Bool := decide (a.toNat ≥ b.toNat)

/-- 8xy6: the bit shifted out, bit 0 (R128). -/
def shiftedOutRight (a : Byte) : Bool := a.getLsbD 0

/-- 8xyE: the bit shifted out, bit 7 (R130). -/
def shiftedOutLeft (a : Byte) : Bool := a.getLsbD 7

/-- V[x] <- c, then VF <- f: the flag is written last, so it wins when x = F (10_state.md R21, D4). -/
def State.setResultFlag (s : State) (x : Nibble) (c : Byte) (f : Bool) : State :=
  (s.setV x c).setV vf (flagByte f)

end Sys2Proof.Machine
end

