-- ==== Sys2Proof/Machine/Alu.lean ====
section
/-! DEFINITION. Register loads, arithmetic, logic, shifts and random (42_alu.md rules R120 to R132). Every result is
reduced mod 256 by its 8-bit type; every flag is computed from the operands before a register is written. -/

namespace Sys2Proof.Machine

/-- LD Vx, kk (R120). -/
def execLoadImmediate (x : Nibble) (kk : Byte) (s : State) : Host.Outcome State Fault Refusal :=
  .next (s.setV x kk).advance

/-- ADD Vx, kk: no flag (R121, D7). -/
def execAddImmediate (x : Nibble) (kk : Byte) (s : State) : Host.Outcome State Fault Refusal :=
  .next (s.setV x (s.getV x + kk)).advance

/-- LD Vx, Vy (R122). -/
def execLoadReg (x y : Nibble) (s : State) : Host.Outcome State Fault Refusal :=
  .next (s.setV x (s.getV y)).advance

/-- OR Vx, Vy: no flag (R123, D6). -/
def execOrReg (x y : Nibble) (s : State) : Host.Outcome State Fault Refusal :=
  .next (s.setV x (s.getV x ||| s.getV y)).advance

/-- AND Vx, Vy: no flag (R124, D6). -/
def execAndReg (x y : Nibble) (s : State) : Host.Outcome State Fault Refusal :=
  .next (s.setV x (s.getV x &&& s.getV y)).advance

/-- XOR Vx, Vy: no flag (R125, D6). -/
def execXorReg (x y : Nibble) (s : State) : Host.Outcome State Fault Refusal :=
  .next (s.setV x (s.getV x ^^^ s.getV y)).advance

/-- ADD Vx, Vy: VF is the carry of the wide sum (R126, D4). -/
def execAddVxVy (x y : Nibble) (s : State) : Host.Outcome State Fault Refusal :=
  .next (s.setResultFlag x (s.getV x + s.getV y) (carryOut (s.getV x) (s.getV y))).advance

/-- SUB Vx, Vy: VF is 1 exactly when Vx ≥ Vy (R127, D4). -/
def execSubVxVy (x y : Nibble) (s : State) : Host.Outcome State Fault Refusal :=
  .next (s.setResultFlag x (s.getV x - s.getV y) (noBorrow (s.getV x) (s.getV y))).advance

/-- SHR Vx: Vx is shifted in place, y is ignored (R128, D5, D4). -/
def execShiftRight (x _y : Nibble) (s : State) : Host.Outcome State Fault Refusal :=
  .next (s.setResultFlag x (s.getV x >>> 1) (shiftedOutRight (s.getV x))).advance

/-- SUBN Vx, Vy: Vx = Vy - Vx, VF is 1 exactly when Vy ≥ Vx (R129, D4). -/
def execSubNVxVy (x y : Nibble) (s : State) : Host.Outcome State Fault Refusal :=
  .next (s.setResultFlag x (s.getV y - s.getV x) (noBorrow (s.getV y) (s.getV x))).advance

/-- SHL Vx: Vx is shifted in place, y is ignored (R130, D5, D4). -/
def execShiftLeft (x _y : Nibble) (s : State) : Host.Outcome State Fault Refusal :=
  .next (s.setResultFlag x (s.getV x <<< 1) (shiftedOutLeft (s.getV x))).advance

/-- RND Vx, kk: the random byte of this STEP, masked (R131, D24). -/
def execRandom (x : Nibble) (kk : Byte) (s : State) : Host.Outcome State Fault Refusal :=
  .next (s.setV x (s.r &&& kk)).advance

end Sys2Proof.Machine
end

