-- ==== Sys2Proof/Machine/Control.lean ====
section
/-! DEFINITION. Control flow: SYS, RET, JP, CALL, the compare skips and JP V0 (41_control_flow.md rules R100 to R110).
`s.pc` is p, the address the instruction was fetched from. -/

namespace Sys2Proof.Machine

/-- SYS nnn: a no-op that advances; nnn is not read (R100, D11). -/
def execSys (_nnn : Addr) (s : State) : Host.Outcome State Fault Refusal :=
  .next s.advance

/-- RET: pop the return address into pc; with sp = 0 raise StackUnderflow(p), pc stays (R101, D13). -/
def execRet (s : State) : Host.Outcome State Fault Refusal :=
  if s.spLegal then
    match s.pop with
    | some (t, a) => .next (t.setPc a)
    | none => .next (s.raise (.stackUnderflow s.pc))
  else .fault .stackPointerOutOfRange

/-- JP nnn (R102). -/
def execJump (nnn : Addr) (s : State) : Host.Outcome State Fault Refusal :=
  .next (s.setPc (zextAddr nnn))

/-- CALL nnn: push the already advanced pc and jump; with sp = 16 raise StackOverflow(p), pc stays (R103, D13, D16). -/
def execCall (nnn : Addr) (s : State) : Host.Outcome State Fault Refusal :=
  if s.spLegal then
    match s.push (pcAdd s.pc 2) with
    | some t => .next (t.setPc (zextAddr nnn))
    | none => .next (s.raise (.stackOverflow s.pc))
  else .fault .stackPointerOutOfRange

/-- SE Vx, kk (R104). -/
def execSkipEqImm (x : Nibble) (kk : Byte) (s : State) : Host.Outcome State Fault Refusal :=
  .next (s.skipIf (s.getV x == kk))

/-- SNE Vx, kk (R105). -/
def execSkipNeImm (x : Nibble) (kk : Byte) (s : State) : Host.Outcome State Fault Refusal :=
  .next (s.skipIf (s.getV x != kk))

/-- SE Vx, Vy (R106). -/
def execSkipEqReg (x y : Nibble) (s : State) : Host.Outcome State Fault Refusal :=
  .next (s.skipIf (s.getV x == s.getV y))

/-- SNE Vx, Vy (R107). -/
def execSkipNeReg (x y : Nibble) (s : State) : Host.Outcome State Fault Refusal :=
  .next (s.skipIf (s.getV x != s.getV y))

/-- JP V0, nnn (R108). -/
def execJumpOffset (nnn : Addr) (s : State) : Host.Outcome State Fault Refusal :=
  .next (s.setPc (offsetTarget nnn (s.getV 0#4)))

end Sys2Proof.Machine
end

