-- ==== Sys2Proof/Machine/Display.lean ====
section
/-! DEFINITION. The pixel framebuffer write port's users, CLS and DRW (43_display.md rules R140 to R143). -/

namespace Sys2Proof.Machine

/-- CLS: the pixel buffer only (R141). -/
def execClearScreen (s : State) : Host.Outcome State Fault Refusal :=
  .next (s.setPix fbClear).advance

/-- One column of a sprite row: bit 7 - col of b inverts the pixel, and the collision is noted when it was set
(R142, D20). The pair is the buffer and c. -/
def drawColumn (b : Byte) (xs py : Nat) (acc : BitVec 2048 × Bool) (col : Nat) : BitVec 2048 × Bool :=
  if b.getLsbD (7 - col) then
    let px := (xs + col) % Config.displayW
    (fbXor acc.1 px py, acc.2 || pixelOf acc.1 px py)
  else acc

/-- One row of a sprite, with the pixel row wrapped mod 32 (R142). -/
def drawRow (s : State) (xs ys : Nat) (acc : BitVec 2048 × Bool) (row : Nat) : BitVec 2048 × Bool :=
  (List.range 8).foldl (drawColumn (s.readByte (s.indexAddr row)) xs ((ys + row) % Config.displayH)) acc

/-- The whole sprite: rows 0 to n-1 from the address in I (R142). -/
def drawSprite (s : State) (xs ys n : Nat) : BitVec 2048 × Bool :=
  (List.range n).foldl (drawRow s xs ys) (s.pix, false)

/-- DRW Vx, Vy, n: the coordinates are read first, VF is written after the pixels (R142, D4). -/
def execDraw (x y n : Nibble) (s : State) : Host.Outcome State Fault Refusal :=
  let d := drawSprite s (s.getV x).toNat (s.getV y).toNat n.toNat
  .next ((s.setPix d.1).setV vf (flagByte d.2)).advance

end Sys2Proof.Machine
end

