-- ==== Sys2Proof/Machine/IndexMemory.lean ====
section
/-! DEFINITION. The index register and the memory instructions (45_index_memory.md rules R160 to R165). -/

namespace Sys2Proof.Machine

/-- LD I, nnn (R160). -/
def execLoadIndex (nnn : Addr) (s : State) : Host.Outcome State Fault Refusal :=
  .next (s.setI (zextAddr nnn)).advance

/-- ADD I, Vx: mod 65536, no flag (R161, D8). -/
def execAddIndex (x : Nibble) (s : State) : Host.Outcome State Fault Refusal :=
  .next (s.setI (indexAdd s.i (s.getV x))).advance

/-- LD F, Vx: the glyph of the low nibble (R162, D9). -/
def execLoadFont (x : Nibble) (s : State) : Host.Outcome State Fault Refusal :=
  .next (s.setI (glyphAddr (s.getV x))).advance

/-- LD B, Vx: hundreds, tens and ones at I, I+1, I+2 (R163). -/
def execStoreBcd (x : Nibble) (s : State) : Host.Outcome State Fault Refusal :=
  let c := s.getV x
  .next (((s.writeByte (s.indexAddr 0) (bcdHundreds c)).writeByte (s.indexAddr 1) (bcdTens c)).writeByte
    (s.indexAddr 2) (bcdOnes c)).advance

/-- V[k] <- the byte at I + k for k below n (R165). -/
def State.loadUpTo : Nat → State → State
  | 0, s => s
  | k + 1, s =>
    let t := State.loadUpTo k s
    t.setV (regIndex k) (t.readByte (t.indexAddr k))

/-- The byte at I + k <- V[k] for k below n (R164). -/
def State.storeUpTo : Nat → State → State
  | 0, s => s
  | k + 1, s =>
    let t := State.storeUpTo k s
    t.writeByte (t.indexAddr k) (t.getV (regIndex k))

/-- LD [I], Vx: V0 to Vx into memory; I is unchanged (R164). -/
def execStoreRegs (x : Nibble) (s : State) : Host.Outcome State Fault Refusal :=
  .next (State.storeUpTo (x.toNat + 1) s).advance

/-- LD Vx, [I]: V0 to Vx from memory; I is unchanged (R165). -/
def execLoadRegs (x : Nibble) (s : State) : Host.Outcome State Fault Refusal :=
  .next (State.loadUpTo (x.toNat + 1) s).advance

end Sys2Proof.Machine
end

