-- ==== Sys2Proof/Machine/Keys.lean ====
section
/-! DEFINITION. The key skips, the wait for a key and the wait check of STEP (44_keys_wait.md rules R150 to R155), and
the KEYS transaction (10_state.md rule R43). -/

namespace Sys2Proof.Machine

/-- SKP Vx (R150). -/
def execSkipKeyPressed (x : Nibble) (s : State) : Host.Outcome State Fault Refusal :=
  .next (s.skipIf (s.keyOf x))

/-- SKNP Vx (R151). -/
def execSkipKeyNotPressed (x : Nibble) (s : State) : Host.Outcome State Fault Refusal :=
  .next (s.skipIf (!s.keyOf x))

/-- LD Vx, K: W <- Some(x) and nothing else; pc stays (R152). -/
def execWaitKey (x : Nibble) (s : State) : Host.Outcome State Fault Refusal :=
  .next (s.setW (some x))

/-- T of R153: the keys at 1 now that the previous STEP saw at 0. -/
def State.newKeys (s : State) : BitVec 16 := s.keys &&& ~~~s.prevKeys

/-- The lowest index of a set of keys, if any (R153). -/
def lowestKey (t : BitVec 16) : Option Nat := (List.range 16).find? (fun k => t.getLsbD k)

/-- The wait check for register x, in place of a fetch (R153, D17). -/
def State.waitCheck (s : State) (x : Nibble) : State :=
  match lowestKey s.newKeys with
  | none => s
  | some k => ((s.setV x (zextNibble (regIndex k))).setW none).advance

/-- KEYS(k) (10_state.md R43). -/
def keysTransaction (k : BitVec 16) (s : State) : Host.Outcome State Fault Refusal :=
  .next (s.setKeys k)

end Sys2Proof.Machine
end

