-- ==== Sys2Proof/Machine/Timers.lean ====
section
/-! DEFINITION. The timer instructions and the timer countdown engine (46_timers.md rules R170 to R175). -/

namespace Sys2Proof.Machine

/-- LD Vx, DT (R170). -/
def execLoadDelay (x : Nibble) (s : State) : Host.Outcome State Fault Refusal :=
  .next (s.setV x s.dt).advance

/-- LD DT, Vx (R171). -/
def execSetDelay (x : Nibble) (s : State) : Host.Outcome State Fault Refusal :=
  .next (s.setDt (s.getV x)).advance

/-- LD ST, Vx (R172). -/
def execSetSound (x : Nibble) (s : State) : Host.Outcome State Fault Refusal :=
  .next (s.setSt (s.getV x)).advance

/-- One timer after n ticks: floored at 0 (R173). -/
def countDown (c : Byte) (n : BitVec 32) : Byte :=
  if c.toNat > n.toNat then BitVec.ofNat 8 (c.toNat - n.toNat) else 0#8

/-- TICK(n), in every state (R173). -/
def tickTransaction (n : BitVec 32) (s : State) : Host.Outcome State Fault Refusal :=
  .next ((s.setDt (countDown s.dt n)).setSt (countDown s.st n))

end Sys2Proof.Machine
end

