-- ==== Sys2Proof/Machine/Dispatch.lean ====
section
/-! DEFINITION. The executor's dispatch (30_encoding.md rule R80, execute): one arm per instruction, each a call of the
meaning its rule gives it. -/

namespace Sys2Proof.Machine

def exec (i : Instr) (s : State) : Host.Outcome State Fault Refusal :=
  match i with
  | .sys nnn => Sys2Proof.Machine.execSys nnn s
  | .clearScreen => Sys2Proof.Machine.execClearScreen s
  | .ret => Sys2Proof.Machine.execRet s
  | .jump nnn => Sys2Proof.Machine.execJump nnn s
  | .call nnn => Sys2Proof.Machine.execCall nnn s
  | .skipEqImm x kk => Sys2Proof.Machine.execSkipEqImm x kk s
  | .skipNeImm x kk => Sys2Proof.Machine.execSkipNeImm x kk s
  | .skipEqReg x y => Sys2Proof.Machine.execSkipEqReg x y s
  | .loadImmediate x kk => Sys2Proof.Machine.execLoadImmediate x kk s
  | .addImmediate x kk => Sys2Proof.Machine.execAddImmediate x kk s
  | .loadReg x y => Sys2Proof.Machine.execLoadReg x y s
  | .orReg x y => Sys2Proof.Machine.execOrReg x y s
  | .andReg x y => Sys2Proof.Machine.execAndReg x y s
  | .xorReg x y => Sys2Proof.Machine.execXorReg x y s
  | .addVxVy x y => Sys2Proof.Machine.execAddVxVy x y s
  | .subVxVy x y => Sys2Proof.Machine.execSubVxVy x y s
  | .shiftRight x y => Sys2Proof.Machine.execShiftRight x y s
  | .subNVxVy x y => Sys2Proof.Machine.execSubNVxVy x y s
  | .shiftLeft x y => Sys2Proof.Machine.execShiftLeft x y s
  | .skipNeReg x y => Sys2Proof.Machine.execSkipNeReg x y s
  | .loadIndex nnn => Sys2Proof.Machine.execLoadIndex nnn s
  | .jumpOffset nnn => Sys2Proof.Machine.execJumpOffset nnn s
  | .random x kk => Sys2Proof.Machine.execRandom x kk s
  | .draw x y n => Sys2Proof.Machine.execDraw x y n s
  | .skipKeyPressed x => Sys2Proof.Machine.execSkipKeyPressed x s
  | .skipKeyNotPressed x => Sys2Proof.Machine.execSkipKeyNotPressed x s
  | .loadDelay x => Sys2Proof.Machine.execLoadDelay x s
  | .waitKey x => Sys2Proof.Machine.execWaitKey x s
  | .setDelay x => Sys2Proof.Machine.execSetDelay x s
  | .setSound x => Sys2Proof.Machine.execSetSound x s
  | .addIndex x => Sys2Proof.Machine.execAddIndex x s
  | .loadFont x => Sys2Proof.Machine.execLoadFont x s
  | .storeBcd x => Sys2Proof.Machine.execStoreBcd x s
  | .storeRegs x => Sys2Proof.Machine.execStoreRegs x s
  | .loadRegs x => Sys2Proof.Machine.execLoadRegs x s

end Sys2Proof.Machine
end

