-- ==== Sys2Proof/Machine/Transactions.lean ====
section
/-! DEFINITION. The transactions of 10_state.md rule R40: STEP as 30_encoding.md rule R80 gives it, TICK, KEYS, LOAD, and
the choice of the next one from the host's schedule. -/

namespace Sys2Proof.Machine

/-- The start of STEP(r): r is latched, the result port is OK until an error is raised, and LOAD may not come any
more (R41, R80, R200, R236). -/
def State.beginStep (s : State) (r : Byte) : State := { s with r := r, result := .ok, phase := .started }

/-- The end of every STEP: prev_keys <- keys (R80). -/
def State.endStep (s : State) : State := { s with prevKeys := s.keys }

/-- An unknown word: the error is reported and pc advances (R80, R200). -/
def State.unknownWord (s : State) (op : Word) : State := (s.raise (.unknownOpcode op s.pc)).advance

/-- What a STEP does between its start and its end: the wait check, or fetch, decode and execute (R80). -/
def stepBody (s : State) : Host.Outcome State Fault Refusal :=
  match s.w with
  | some x => .next (s.waitCheck x)
  | none =>
    match decode s.fetchWord with
    | .unknown op => .next (s.unknownWord op)
    | .known i => exec i s

/-- STEP(r) (R80). -/
def stepTransaction (r : Byte) (s : State) : Host.Outcome State Fault Refusal :=
  mapNext State.endStep (stepBody (s.beginStep r))

/-- One transaction, atomic (10_state.md R40, R47). -/
def transact (t : Transaction) (s : State) : Host.Outcome State Fault Refusal :=
  match t with
  | .step r => stepTransaction r s
  | .tick n => tickTransaction n s
  | .keys k => keysTransaction k s
  | .load image => loadTransaction image s

/-- The host's next transaction, and the state with it taken off: the head of the schedule, or a STEP with a free
random byte where the schedule is empty (notes/assumptions/1.md and 2.md). -/
def nextTransaction (s : State) : Transaction × State :=
  match s.schedule with
  | t :: rest => (t, { s with schedule := rest })
  | [] => (.step (Config.randomByte s.draws), { s with draws := s.draws + 1 })

end Sys2Proof.Machine
end

