-- ==== Sys2Proof/Machine/Step.lean ====
section
/-! DEFINITION. One step of the machine: the host's next transaction (10_state.md rules R40 and R47). Where the schedule
is empty that is a STEP. And the placing of one instruction where the next step runs it (notes/assumptions/8.md). -/

namespace Sys2Proof.Machine

/-- One transaction of the host. -/
def step (s : State) : Host.Outcome State Fault Refusal :=
  transact (nextTransaction s).1 (nextTransaction s).2

/-- s with one instruction stored where the next step fetches: its word at pc, big-endian, no key wait under way and
no other transaction before the STEP. The bits of w above nbits are 0. -/
def State.withFetchWord (s : State) (nbits w : Nat) : State :=
  { s.placeWord (tableWord nbits w) with w := none, schedule := [] }

end Sys2Proof.Machine
end

