-- ==== Sys2Proof/Safety.lean ====
section
/-! DEFINITION. What counts as a safe run, in the terms the statements use: the invariant of the state, the host's duty
about LOAD, what changes from one state to another, and which registers an instruction may write. -/

namespace Sys2Proof.Machine

/-- The state is one the block can be in (10_state.md rules R24, R28, R29, R31, R36). -/
structure Inv (s : State) : Prop where
  /-- pc stays within [0, 4096) (R24) -/
  pcInRange : s.pc.toNat < 4096
  /-- sp is at most 16 (R28) -/
  spInRange : s.sp.toNat ≤ 16
  /-- every valid return address is below 4096 (R29) -/
  framesInRange : ∀ j, (h : j < 16) → j < s.sp.toNat → (s.stack[j]'h).toNat < 4096
  /-- memory is in canonical form -/
  memCanonical : s.mem.wf
  /-- while W is Some(x), execution is parked on the Fx0A of x (R31, 44_keys_wait.md R152) -/
  waitIsParked : ∀ x, s.w = some x → decode s.fetchWord = .known (.waitKey x)
  /-- a key wait begins with a STEP, so LOAD is over (70_reset_and_hazards.md R236) -/
  waitIsStarted : s.w ≠ none → s.phase = .started

/-- The host keeps its duty about LOAD on this schedule: at most one, before the first STEP, of at most 3584 bytes
(70_reset_and_hazards.md rules R236 and R240). -/
def dutiful : BootPhase → List Transaction → Bool
  | _, [] => true
  | _, .step _ :: rest => dutiful .started rest
  | p, .tick _ :: rest => dutiful p rest
  | p, .keys _ :: rest => dutiful p rest
  | .awaitingLoad, .load image :: rest => decide (image.length ≤ 3584) && dutiful .started rest
  | .started, .load _ :: _ => false

/-- A state the block can be in, under a host that keeps its duty about LOAD. -/
structure Safe (s : State) : Prop where
  inv : Inv s
  duty : dutiful s.phase s.schedule = true

/-- The parts of the state, one name each. -/
inductive Part where
  | v | i | pc | stack | sp | dt | st | mem | pix | keys | w | prevKeys | r | draws | result | phase | schedule
  deriving DecidableEq, Repr

/-- Every part of the state that is not named is the same in s and t. Memory is the same when every byte reads the
same. -/
structure ChangesOnly (parts : List Part) (s t : State) : Prop where
  v : .v ∉ parts → ∀ k, t.getV k = s.getV k
  i : .i ∉ parts → t.i = s.i
  pc : .pc ∉ parts → t.pc = s.pc
  stack : .stack ∉ parts → t.stack = s.stack
  sp : .sp ∉ parts → t.sp = s.sp
  dt : .dt ∉ parts → t.dt = s.dt
  st : .st ∉ parts → t.st = s.st
  mem : .mem ∉ parts → ∀ a, t.readByte a = s.readByte a
  pix : .pix ∉ parts → t.pix = s.pix
  keys : .keys ∉ parts → t.keys = s.keys
  w : .w ∉ parts → t.w = s.w
  prevKeys : .prevKeys ∉ parts → t.prevKeys = s.prevKeys
  r : .r ∉ parts → t.r = s.r
  draws : .draws ∉ parts → t.draws = s.draws
  result : .result ∉ parts → t.result = s.result
  phase : .phase ∉ parts → t.phase = s.phase
  schedule : .schedule ∉ parts → t.schedule = s.schedule

/-- Register k is one the instruction may write: the "writes" column of 10_state.md rule R23. -/
def mayWriteV : Instr → Nibble → Prop
  | .loadImmediate x _, k => k = x
  | .addImmediate x _, k => k = x
  | .loadReg x _, k => k = x
  | .orReg x _, k => k = x
  | .andReg x _, k => k = x
  | .xorReg x _, k => k = x
  | .addVxVy x _, k => k = x ∨ k = vf
  | .subVxVy x _, k => k = x ∨ k = vf
  | .shiftRight x _, k => k = x ∨ k = vf
  | .subNVxVy x _, k => k = x ∨ k = vf
  | .shiftLeft x _, k => k = x ∨ k = vf
  | .random x _, k => k = x
  | .draw _ _ _, k => k = vf
  | .loadDelay x, k => k = x
  | .loadRegs x, k => k ≤ x
  | .sys _, _ => False
  | .clearScreen, _ => False
  | .ret, _ => False
  | .jump _, _ => False
  | .call _, _ => False
  | .skipEqImm _ _, _ => False
  | .skipNeImm _ _, _ => False
  | .skipEqReg _ _, _ => False
  | .skipNeReg _ _, _ => False
  | .loadIndex _, _ => False
  | .jumpOffset _, _ => False
  | .skipKeyPressed _, _ => False
  | .skipKeyNotPressed _, _ => False
  | .waitKey _, _ => False
  | .setDelay _, _ => False
  | .setSound _, _ => False
  | .addIndex _, _ => False
  | .loadFont _, _ => False
  | .storeBcd _, _ => False
  | .storeRegs _, _ => False

/-- Pixel (px, py) is one that the sprite at (xs, ys) covers with a 1 bit, n rows from the address in I, bit 7 of a row
leftmost (43_display.md rule R142). -/
def spriteCovers (s : State) (xs ys n px py : Nat) : Prop :=
  ∃ row col, row < n ∧ col < 8 ∧ (s.readByte (s.i.toNat + row)).getLsbD (7 - col) = true ∧
    px = (xs + col) % 64 ∧ py = (ys + row) % 32

/-- A run of instructions one after another, each from the state the one before it left, all of them completing. -/
def execAll : List Instr → State → Option State
  | [], s => some s
  | i :: is, s =>
    match exec i s with
    | .next t => execAll is t
    | .fault _ => none
    | .refused _ => none

end Sys2Proof.Machine
end

