-- ==== Sys2Proof/Certificates/Slice0/Obligations.lean ====
section
/-! DEFINITION. The statements for the provers. `exec i s = .next t` says that instruction i completes from s with t;
`ChangesOnly parts s t` (Safety.lean) is the frame. The frame of an instruction never names `result`, so an
instruction whose rule says "Exceptions: none" leaves the result port at the OK that STEP put there. A decode clause
gives the words that stand for the instruction; the spec marks most of those patterns as general knowledge
(notes/assumptions/9.md). -/

open Sys2Proof Sys2Proof.Machine

/-! ### Decoding and encoding -/

/-- Words written out in 95_test_vectors.md section 2.1, and what they decode to. -/
def Obligations.SpecWordsDecodeAsListed : Prop :=
  decode 0x00E0#16 = .known .clearScreen ∧ decode 0x00EE#16 = .known .ret ∧
  decode 0x00E1#16 = .known (.sys 0x0E1#12) ∧ decode 0x1ABC#16 = .known (.jump 0xABC#12) ∧
  decode 0x3A55#16 = .known (.skipEqImm 0xA#4 0x55#8) ∧ decode 0x5121#16 = .unknown 0x5121#16 ∧
  decode 0x8125#16 = .known (.subVxVy 1#4 2#4) ∧ decode 0x812E#16 = .known (.shiftLeft 1#4 2#4) ∧
  decode 0xA123#16 = .known (.loadIndex 0x123#12) ∧ decode 0xD125#16 = .known (.draw 1#4 2#4 5#4) ∧
  decode 0xE3A1#16 = .known (.skipKeyNotPressed 3#4) ∧ decode 0xF333#16 = .known (.storeBcd 3#4) ∧
  decode 0xF000#16 = .unknown 0xF000#16

/-- Decoding undoes encoding, for every well-formed instruction, as a word and as bytes with more bytes after it
(rules R82 and R84, both marked derived by the spec). -/
def Obligations.DecodeOfEncodeIsTheInstruction : Prop :=
  ∀ i : Instr, i.wellFormed = true →
    decode (encode i) = .known i ∧ ∀ rest, decodeBytes (encodeBytes i ++ rest) = .ok (i, rest)

/-- Encoding undoes decoding: a known word is the word of its instruction, which is well formed, so no bit of a known
word is dropped (rule R82, marked derived by the spec). -/
def Obligations.EncodeOfDecodeIsTheWord : Prop :=
  ∀ (op : Word) (i : Instr), decode op = .known i → encode i = op ∧ i.wellFormed = true

/-- The nibble-driven decoder and the match and mask map are the same map: a word selects a row exactly when the decoder
gives the row's constructor (rule R79, marked derived by the spec). -/
def Obligations.DecoderAgreesWithOpcodeMap : Prop :=
  ∀ (op : Word) (row : OpcodeRow), row ∈ opcodeTable →
    (rowSelects row op = true ↔ decodedTag (decode op) = row.tag)

/-- The unknown words, group by group (rule R76, marked derived by the spec), reported with the word itself and with the
decoder's unknown signal (rule R78). -/
def Obligations.UnknownWordsAreExactlyThose : Prop :=
  ∀ op : Word,
    (decode op = .unknown op ↔
      (fieldT op = 0x5#4 ∧ fieldN op ≠ 0#4) ∨
      (fieldT op = 0x8#4 ∧ fieldN op ∈ [0x8#4, 0x9#4, 0xA#4, 0xB#4, 0xC#4, 0xD#4, 0xF#4]) ∨
      (fieldT op = 0x9#4 ∧ fieldN op ≠ 0#4) ∨
      (fieldT op = 0xE#4 ∧ fieldKk op ∉ [0x9E#8, 0xA1#8]) ∨
      (fieldT op = 0xF#4 ∧
        fieldKk op ∉ [0x07#8, 0x0A#8, 0x15#8, 0x18#8, 0x1E#8, 0x29#8, 0x33#8, 0x55#8, 0x65#8])) ∧
    (∀ op', decode op = .unknown op' → op' = op) ∧
    ((decoderSignals op).unknown = true ↔ decode op = .unknown op)

/-! ### The step -/

/-- Rule R71: the word is fetched big-endian from pc and (pc + 1) mod 4096. -/
def Obligations.FetchIsBigEndian : Prop :=
  ∀ s : State, s.fetchWord.toNat = (s.readByte s.pc.toNat).toNat * 256 + (s.readByte ((s.pc.toNat + 1) % 4096)).toNat

/-- A step runs the decoded instruction. Where the host's next transaction is STEP(r) (as it is where the schedule is
empty), no key wait is under way and the word at pc decodes to i, step is exec of i with r latched, the result port at
OK and the boot phase over, and prev_keys set to keys after it (rule R80). -/
def Obligations.StepRunsTheDecodedInstruction : Prop :=
  (∀ s : State, s.schedule = [] → ∃ r, nextTransaction s = (.step r, { s with draws := s.draws + 1 })) ∧
  ∀ (s s₀ : State) (r : Byte) (i : Instr), nextTransaction s = (.step r, s₀) → s.w = none →
    decode s.fetchWord = .known i →
    (∀ t, exec i { s₀ with r := r, result := .ok, phase := .started } = .next t →
      step s = .next { t with prevKeys := t.keys }) ∧
    (∀ e, exec i { s₀ with r := r, result := .ok, phase := .started } = .fault e → step s = .fault e) ∧
    (∀ e, exec i { s₀ with r := r, result := .ok, phase := .started } = .refused e → step s = .refused e)

/-- An unknown word: the STEP reports it with its address, pc advances by 2, and of the block's own state only prev_keys
changes beside it (rules R80 and R200, which rest on decisions D17 and D3). -/
def Obligations.UnknownOpcodeIsReportedAndSkipped : Prop :=
  ∀ (s s₀ : State) (r : Byte) (op : Word), nextTransaction s = (.step r, s₀) → s.w = none →
    decode s.fetchWord = .unknown op →
    ∃ t, step s = .next t ∧ t.result = .unknownOpcode s.fetchWord s.pc ∧
      t.pc.toNat = (s.pc.toNat + 2) % 4096 ∧ t.prevKeys = s.keys ∧
      ChangesOnly [.pc, .prevKeys, .result, .r, .draws, .phase, .schedule] s t

/-- A STEP during a key wait fetches nothing: with no newly pressed key it changes only prev_keys; else the lowest newly
pressed key goes to V[x], the wait ends and pc advances (rule R153, which rests on decision D17). -/
def Obligations.WaitingStepChecksForANewKey : Prop :=
  ∀ (s s₀ : State) (r : Byte) (x : Nibble), nextTransaction s = (.step r, s₀) → s.w = some x →
    ∃ t, step s = .next t ∧ t.prevKeys = s.keys ∧ t.result = .ok ∧
      ((∀ k : Nibble, s.keys.getLsbD k.toNat = true → s.prevKeys.getLsbD k.toNat = true) →
        ChangesOnly [.prevKeys, .result, .r, .draws, .phase, .schedule] s t) ∧
      (∀ k : Nibble, s.keys.getLsbD k.toNat = true → s.prevKeys.getLsbD k.toNat = false →
        (∀ j : Nibble, j < k → s.keys.getLsbD j.toNat = true → s.prevKeys.getLsbD j.toNat = true) →
        (t.getV x).toNat = k.toNat ∧ (∀ j, j ≠ x → t.getV j = s.getV j) ∧ t.w = none ∧
        t.pc.toNat = (s.pc.toNat + 2) % 4096 ∧
        ChangesOnly [.v, .pc, .w, .prevKeys, .result, .r, .draws, .phase, .schedule] s t)

/-! ### Control flow -/

/-- SYS is a no-op that advances, without an error (rule R100, which rests on decision D11). -/
def Obligations.SysOnlyAdvances : Prop :=
  ∀ (s : State) (nnn : Addr), nnn ≠ 0x0E0#12 → nnn ≠ 0x0EE#12 →
    decode (formatNNN 0x0#4 nnn) = .known (.sys nnn) ∧
    ∃ t, exec (.sys nnn) s = .next t ∧ t.pc.toNat = (s.pc.toNat + 2) % 4096 ∧ ChangesOnly [.pc] s t

/-- JP nnn: rule R102, which the spec marks as general knowledge. -/
def Obligations.JumpSetsPc : Prop :=
  ∀ (s : State) (nnn : Addr),
    decode (formatNNN 0x1#4 nnn) = .known (.jump nnn) ∧
    ∃ t, exec (.jump nnn) s = .next t ∧ t.pc.toNat = nnn.toNat ∧ ChangesOnly [.pc] s t

/-- JP V0, nnn: rule R108. -/
def Obligations.JumpOffsetAddsV0 : Prop :=
  ∀ (s : State) (nnn : Addr),
    decode (formatNNN 0xB#4 nnn) = .known (.jumpOffset nnn) ∧
    ∃ t, exec (.jumpOffset nnn) s = .next t ∧ t.pc.toNat = (nnn.toNat + (s.getV 0#4).toNat) % 4096 ∧
      ChangesOnly [.pc] s t

/-- SE Vx, kk and SNE Vx, kk: rules R104 and R105, whose compare conditions the spec marks as general knowledge. -/
def Obligations.ImmediateSkipsMovePc : Prop :=
  ∀ (s : State) (x : Nibble) (kk : Byte),
    decode (formatXKK 0x3#4 x kk) = .known (.skipEqImm x kk) ∧
    decode (formatXKK 0x4#4 x kk) = .known (.skipNeImm x kk) ∧
    ∃ t u, exec (.skipEqImm x kk) s = .next t ∧ exec (.skipNeImm x kk) s = .next u ∧
      t.pc.toNat = (s.pc.toNat + if s.getV x = kk then 4 else 2) % 4096 ∧
      u.pc.toNat = (s.pc.toNat + if s.getV x ≠ kk then 4 else 2) % 4096 ∧
      ChangesOnly [.pc] s t ∧ ChangesOnly [.pc] s u

/-- SE Vx, Vy and SNE Vx, Vy, with the strict function nibble (rules R106 and R107, which rest on decision D12). -/
def Obligations.RegisterSkipsMovePc : Prop :=
  ∀ (s : State) (x y n : Nibble),
    decode (formatXYF 0x5#4 x y n) = (if n = 0#4 then .known (.skipEqReg x y) else .unknown (formatXYF 0x5#4 x y n)) ∧
    decode (formatXYF 0x9#4 x y n) = (if n = 0#4 then .known (.skipNeReg x y) else .unknown (formatXYF 0x9#4 x y n)) ∧
    ∃ t u, exec (.skipEqReg x y) s = .next t ∧ exec (.skipNeReg x y) s = .next u ∧
      t.pc.toNat = (s.pc.toNat + if s.getV x = s.getV y then 4 else 2) % 4096 ∧
      u.pc.toNat = (s.pc.toNat + if s.getV x ≠ s.getV y then 4 else 2) % 4096 ∧
      (x = y → t.pc.toNat = (s.pc.toNat + 4) % 4096 ∧ u.pc.toNat = (s.pc.toNat + 2) % 4096) ∧
      ChangesOnly [.pc] s t ∧ ChangesOnly [.pc] s u

/-- CALL nnn with room on the stack: the already advanced pc is stored at stack[sp], sp counts one more frame, pc is nnn;
with sp = 16 it reports StackOverflow(p) and changes nothing else (rule R103, which rests on decisions D13, D14 and
D16). -/
def Obligations.CallPushesOrOverflows : Prop :=
  ∀ (s : State) (nnn : Addr),
    decode (formatNNN 0x2#4 nnn) = .known (.call nnn) ∧
    (∀ h : s.sp.toNat < 16,
      ∃ t, exec (.call nnn) s = .next t ∧ t.pc.toNat = nnn.toNat ∧ t.sp.toNat = s.sp.toNat + 1 ∧
        (t.stack[s.sp.toNat]'h).toNat = (s.pc.toNat + 2) % 4096 ∧
        (∀ j, (hj : j < 16) → j ≠ s.sp.toNat → t.stack[j]'hj = s.stack[j]'hj) ∧
        ChangesOnly [.pc, .sp, .stack] s t) ∧
    (s.sp.toNat = 16 →
      ∃ t, exec (.call nnn) s = .next t ∧ t.result = .stackOverflow s.pc ∧ ChangesOnly [.result] s t)

/-- RET with a frame on the stack: sp counts one less and pc is the popped address; with sp = 0 it reports
StackUnderflow(p) and changes nothing else (rule R101, which rests on decision D13). -/
def Obligations.ReturnPopsOrUnderflows : Prop :=
  decode 0x00EE#16 = .known .ret ∧
  ∀ s : State,
    (∀ h : 0 < s.sp.toNat ∧ s.sp.toNat ≤ 16,
      ∃ t, exec .ret s = .next t ∧ t.pc = s.stack[s.sp.toNat - 1]'(by have := h.1; have := h.2; omega) ∧
        t.sp.toNat = s.sp.toNat - 1 ∧ ChangesOnly [.pc, .sp] s t) ∧
    (s.sp.toNat = 0 →
      ∃ t, exec .ret s = .next t ∧ t.result = .stackUnderflow s.pc ∧ ChangesOnly [.result] s t)

/-- Stack discipline (95_test_vectors.md T7): calls that fit on the stack all succeed, and as many returns bring sp back
and pc to the address after the first call. As it holds from every state, each return of the chain goes back to its own
call site, in reverse order. -/
def Obligations.ReturnsUndoCallsInReverseOrder : Prop :=
  ∀ (s : State) (targets : List Addr), s.sp.toNat + targets.length ≤ 16 →
    ∃ t u, execAll (targets.map .call) s = some t ∧ t.sp.toNat = s.sp.toNat + targets.length ∧
      execAll (List.replicate targets.length .ret) t = some u ∧ u.sp = s.sp ∧
      (∀ j, (hj : j < 16) → j < s.sp.toNat → u.stack[j]'hj = s.stack[j]'hj) ∧
      u.pc.toNat = (if targets = [] then s.pc.toNat else (s.pc.toNat + 2) % 4096) ∧
      ChangesOnly [.pc, .sp, .stack] s u

/-- After a stack error the program makes no progress: whatever the host does next, the CALL or RET stays at pc with its
sp, and a STEP reports the same error again (rule R206, which rests on decision D13). -/
def Obligations.StackErrorsRepeat : Prop :=
  ∀ s t : State, s.phase = .started → s.w = none → step s = .next t →
    ((∃ nnn, decode s.fetchWord = .known (.call nnn)) ∧ s.sp.toNat = 16 →
      ChangesOnly [.keys, .dt, .st, .prevKeys, .result, .r, .draws, .schedule] s t ∧ t.fetchWord = s.fetchWord ∧
      ((∃ r, (nextTransaction s).1 = .step r) → t.result = .stackOverflow s.pc)) ∧
    (decode s.fetchWord = .known .ret ∧ s.sp.toNat = 0 →
      ChangesOnly [.keys, .dt, .st, .prevKeys, .result, .r, .draws, .schedule] s t ∧ t.fetchWord = s.fetchWord ∧
      ((∃ r, (nextTransaction s).1 = .step r) → t.result = .stackUnderflow s.pc))

/-! ### Registers, arithmetic, logic -/

/-- LD Vx, kk: rule R120. -/
def Obligations.LoadImmediateSetsVx : Prop :=
  ∀ (s : State) (x : Nibble) (kk : Byte),
    decode (formatXKK 0x6#4 x kk) = .known (.loadImmediate x kk) ∧
    ∃ t, exec (.loadImmediate x kk) s = .next t ∧ t.getV x = kk ∧ (∀ k, k ≠ x → t.getV k = s.getV k) ∧
      t.pc.toNat = (s.pc.toNat + 2) % 4096 ∧ ChangesOnly [.v, .pc] s t

/-- LD Vx, Vy: rule R122, which the spec marks as general knowledge. -/
def Obligations.LoadRegCopiesVy : Prop :=
  ∀ (s : State) (x y : Nibble),
    decode (formatXYF 0x8#4 x y 0x0#4) = .known (.loadReg x y) ∧
    ∃ t, exec (.loadReg x y) s = .next t ∧ t.getV x = s.getV y ∧ (∀ k, k ≠ x → t.getV k = s.getV k) ∧
      t.pc.toNat = (s.pc.toNat + 2) % 4096 ∧ ChangesOnly [.v, .pc] s t

/-- ADD Vx, kk wraps mod 256 and writes no flag (rule R121, which rests on decision D7). -/
def Obligations.AddImmediateWrapsWithoutFlag : Prop :=
  ∀ (s : State) (x : Nibble) (kk : Byte),
    decode (formatXKK 0x7#4 x kk) = .known (.addImmediate x kk) ∧
    ∃ t, exec (.addImmediate x kk) s = .next t ∧ (t.getV x).toNat = ((s.getV x).toNat + kk.toNat) % 256 ∧
      (∀ k, k ≠ x → t.getV k = s.getV k) ∧
      t.pc.toNat = (s.pc.toNat + 2) % 4096 ∧ ChangesOnly [.v, .pc] s t

/-- OR, AND and XOR, bit by bit, without a flag (rules R123 to R125, which rest on decision D6). -/
def Obligations.LogicOpsWorkBitwiseWithoutFlag : Prop :=
  ∀ (s : State) (x y : Nibble),
    decode (formatXYF 0x8#4 x y 0x1#4) = .known (.orReg x y) ∧
    decode (formatXYF 0x8#4 x y 0x2#4) = .known (.andReg x y) ∧
    decode (formatXYF 0x8#4 x y 0x3#4) = .known (.xorReg x y) ∧
    ∃ t u w, exec (.orReg x y) s = .next t ∧ exec (.andReg x y) s = .next u ∧ exec (.xorReg x y) s = .next w ∧
      (∀ b < 8, (t.getV x).getLsbD b = ((s.getV x).getLsbD b || (s.getV y).getLsbD b)) ∧
      (∀ b < 8, (u.getV x).getLsbD b = ((s.getV x).getLsbD b && (s.getV y).getLsbD b)) ∧
      (∀ b < 8, (w.getV x).getLsbD b = ((s.getV x).getLsbD b ^^ (s.getV y).getLsbD b)) ∧
      (∀ z ∈ [t, u, w], (∀ k, k ≠ x → z.getV k = s.getV k) ∧ z.pc.toNat = (s.pc.toNat + 2) % 4096 ∧
        ChangesOnly [.v, .pc] s z)

/-- ADD Vx, Vy: the wrapped sum, and the carry of the wide sum in VF, written last (rule R126; flag last is decision
D4). -/
def Obligations.AddSetsSumThenCarry : Prop :=
  ∀ (s : State) (x y : Nibble),
    decode (formatXYF 0x8#4 x y 0x4#4) = .known (.addVxVy x y) ∧
    ∃ t, exec (.addVxVy x y) s = .next t ∧
      (x ≠ vf → (t.getV x).toNat = ((s.getV x).toNat + (s.getV y).toNat) % 256) ∧
      (t.getV vf).toNat = (if (s.getV x).toNat + (s.getV y).toNat > 255 then 1 else 0) ∧
      (∀ k, k ≠ x → k ≠ vf → t.getV k = s.getV k) ∧
      t.pc.toNat = (s.pc.toNat + 2) % 4096 ∧ ChangesOnly [.v, .pc] s t

/-- SUB and SUBN: the wrapped difference, and "no borrow" in VF, written last; equal operands give 1 (rules R127 and
R129; flag last is decision D4). -/
def Obligations.SubtractSetsDifferenceThenNoBorrow : Prop :=
  ∀ (s : State) (x y : Nibble),
    decode (formatXYF 0x8#4 x y 0x5#4) = .known (.subVxVy x y) ∧
    decode (formatXYF 0x8#4 x y 0x7#4) = .known (.subNVxVy x y) ∧
    ∃ t u, exec (.subVxVy x y) s = .next t ∧ exec (.subNVxVy x y) s = .next u ∧
      (x ≠ vf → (t.getV x).toNat = ((s.getV x).toNat + 256 - (s.getV y).toNat) % 256) ∧
      (x ≠ vf → (u.getV x).toNat = ((s.getV y).toNat + 256 - (s.getV x).toNat) % 256) ∧
      (t.getV vf).toNat = (if (s.getV x).toNat ≥ (s.getV y).toNat then 1 else 0) ∧
      (u.getV vf).toNat = (if (s.getV y).toNat ≥ (s.getV x).toNat then 1 else 0) ∧
      (∀ z ∈ [t, u], (∀ k, k ≠ x → k ≠ vf → z.getV k = s.getV k) ∧ z.pc.toNat = (s.pc.toNat + 2) % 4096 ∧
        ChangesOnly [.v, .pc] s z)

/-- SHR and SHL shift Vx in place by one, whatever y is, and VF takes the bit shifted out, last (rules R128 and R130,
which rest on decisions D5 and D4). -/
def Obligations.ShiftsSetVxThenBitShiftedOut : Prop :=
  ∀ (s : State) (x y : Nibble),
    decode (formatXYF 0x8#4 x y 0x6#4) = .known (.shiftRight x y) ∧
    decode (formatXYF 0x8#4 x y 0xE#4) = .known (.shiftLeft x y) ∧
    ∃ t u, exec (.shiftRight x y) s = .next t ∧ exec (.shiftLeft x y) s = .next u ∧
      (x ≠ vf → (t.getV x).toNat = (s.getV x).toNat / 2) ∧
      (x ≠ vf → (u.getV x).toNat = (s.getV x).toNat * 2 % 256) ∧
      (t.getV vf).toNat = (s.getV x).toNat % 2 ∧
      (u.getV vf).toNat = (s.getV x).toNat / 128 ∧
      (∀ z ∈ [t, u], (∀ k, k ≠ x → k ≠ vf → z.getV k = s.getV k) ∧ z.pc.toNat = (s.pc.toNat + 2) % 4096 ∧
        ChangesOnly [.v, .pc] s z)

/-- RND Vx, kk masks the random byte r of its STEP, for every r (rule R131; the free draw is decision D24). In the model
r is latched in State (notes/assumptions/2.md): the statement is for every value of it. -/
def Obligations.RandomMasksTheStepsByte : Prop :=
  ∀ (s : State) (x : Nibble) (kk : Byte),
    decode (formatXKK 0xC#4 x kk) = .known (.random x kk) ∧
    (∃ t, exec (.random x kk) s = .next t ∧ t.getV x = s.r &&& kk ∧ (∀ k, k ≠ x → t.getV k = s.getV k) ∧
      t.pc.toNat = (s.pc.toNat + 2) % 4096 ∧ ChangesOnly [.v, .pc] s t) ∧
    (∀ r : Byte, s.w = none → decode s.fetchWord = .known (.random x kk) →
      ∃ t, stepTransaction r s = .next t ∧ t.getV x = r &&& kk)

/-! ### Display -/

/-- CLS: rule R141. -/
def Obligations.ClearScreenZeroesOnlyPixels : Prop :=
  decode 0x00E0#16 = .known .clearScreen ∧
  ∀ s : State, ∃ t, exec .clearScreen s = .next t ∧ (∀ px < 64, ∀ py < 32, t.pixel px py = false) ∧
    t.pc.toNat = (s.pc.toNat + 2) % 4096 ∧ ChangesOnly [.pix, .pc] s t

/-- DRW inverts exactly the pixels its sprite covers, wrapped mod 64 and mod 32, and VF says whether one of them was set
(rule R142; the bit order is decision D20 and flag last is D4). -/
def Obligations.DrawInvertsCoveredPixels : Prop :=
  ∀ (s : State) (x y n : Nibble),
    decode (formatXYF 0xD#4 x y n) = .known (.draw x y n) ∧
    ∃ t, exec (.draw x y n) s = .next t ∧
      (∀ px < 64, ∀ py < 32,
        (spriteCovers s (s.getV x).toNat (s.getV y).toNat n.toNat px py → t.pixel px py = !s.pixel px py) ∧
        (¬ spriteCovers s (s.getV x).toNat (s.getV y).toNat n.toNat px py → t.pixel px py = s.pixel px py)) ∧
      ((∃ px py, spriteCovers s (s.getV x).toNat (s.getV y).toNat n.toNat px py ∧ s.pixel px py = true) →
        t.getV vf = 1#8) ∧
      ((¬ ∃ px py, spriteCovers s (s.getV x).toNat (s.getV y).toNat n.toNat px py ∧ s.pixel px py = true) →
        t.getV vf = 0#8) ∧
      (∀ k, k ≠ vf → t.getV k = s.getV k) ∧
      t.pc.toNat = (s.pc.toNat + 2) % 4096 ∧ ChangesOnly [.v, .pix, .pc] s t

/-- Drawing the same sprite again at the same coordinates, with the same I and n and the same memory, restores the whole
buffer; on pixels that were all 0 the first draw gives VF = 0 and, for a sprite with a set bit, the second VF = 1
(rule R143, marked derived by the spec). -/
def Obligations.DrawingTwiceRestoresTheScreen : Prop :=
  ∀ (s : State) (x y n : Nibble),
    ∃ t, exec (.draw x y n) s = .next t ∧
      ∀ t' : State, t'.pix = t.pix → t'.i = s.i → (∀ a, t'.readByte a = s.readByte a) →
        t'.getV x = s.getV x → t'.getV y = s.getV y →
        ∃ u, exec (.draw x y n) t' = .next u ∧ u.pix = s.pix ∧
          ((∀ px py, spriteCovers s (s.getV x).toNat (s.getV y).toNat n.toNat px py → s.pixel px py = false) →
            t.getV vf = 0#8 ∧
            ((∃ px py, spriteCovers s (s.getV x).toNat (s.getV y).toNat n.toNat px py) → u.getV vf = 1#8))

/-! ### Keys -/

/-- SKP and SKNP test the key that the low nibble of Vx names (rules R150 and R151, which rest on decision D36). -/
def Obligations.KeySkipsMovePc : Prop :=
  ∀ (s : State) (x : Nibble),
    decode (formatXKK 0xE#4 x 0x9E#8) = .known (.skipKeyPressed x) ∧
    decode (formatXKK 0xE#4 x 0xA1#8) = .known (.skipKeyNotPressed x) ∧
    ∃ t u, exec (.skipKeyPressed x) s = .next t ∧ exec (.skipKeyNotPressed x) s = .next u ∧
      t.pc.toNat = (s.pc.toNat + if s.keys.getLsbD ((s.getV x).toNat % 16) = true then 4 else 2) % 4096 ∧
      u.pc.toNat = (s.pc.toNat + if s.keys.getLsbD ((s.getV x).toNat % 16) = false then 4 else 2) % 4096 ∧
      ChangesOnly [.pc] s t ∧ ChangesOnly [.pc] s u

/-- LD Vx, K: rule R152. W <- Some(x) and nothing else. After its STEP, a key held since does not complete the wait at a
further STEP, the word at pc is not looked at, and TICK still counts both timers down. -/
def Obligations.WaitKeyParksThePc : Prop :=
  ∀ (s : State) (x : Nibble),
    decode (formatXKK 0xF#4 x 0x0A#8) = .known (.waitKey x) ∧
    (∃ t, exec (.waitKey x) s = .next t ∧ t.w = some x ∧ ChangesOnly [.w] s t) ∧
    (∀ r : Byte, s.w = none → decode s.fetchWord = .known (.waitKey x) →
      ∃ t, stepTransaction r s = .next t ∧ t.w = some x ∧ t.pc = s.pc ∧ t.result = .ok ∧
        (∀ (r' : Byte) (m : Memory), ∃ u, stepTransaction r' { t with mem := m } = .next u ∧
          u.w = some x ∧ u.pc = s.pc ∧ u.result = .ok ∧ ∀ k, u.getV k = s.getV k) ∧
        (∀ n : BitVec 32, ∃ u, tickTransaction n t = .next u ∧ u.w = some x ∧
          u.dt.toNat = s.dt.toNat - n.toNat ∧ u.st.toNat = s.st.toNat - n.toNat))

/-- Rule R33: only KEYS writes the key snapshot, and of the instructions only SKP and SKNP read it: any other instruction
does the same whatever the keys are. The third reader is the wait check (Obligations.WaitingStepChecksForANewKey). -/
def Obligations.KeysAreWrittenByKeysAndReadBySkips : Prop :=
  (∀ s t : State, step s = .next t →
    t.keys = (match (nextTransaction s).1 with
      | .keys k => k
      | .step _ => s.keys
      | .tick _ => s.keys
      | .load _ => s.keys)) ∧
  (∀ (i : Instr) (s : State) (ks : BitVec 16),
    (∀ x, i ≠ .skipKeyPressed x) → (∀ x, i ≠ .skipKeyNotPressed x) →
    exec i { s with keys := ks } = mapNext (fun t => { t with keys := ks }) (exec i s)) ∧
  (∀ (s : State) (k : BitVec 16) (rest : List Transaction), s.schedule = .keys k :: rest →
    ∃ t, step s = .next t ∧ t.keys = k ∧ ChangesOnly [.keys, .schedule] s t)

/-! ### Index and memory -/

/-- LD I, nnn: rule R160, which the spec marks as general knowledge. -/
def Obligations.LoadIndexSetsI : Prop :=
  ∀ (s : State) (nnn : Addr),
    decode (formatNNN 0xA#4 nnn) = .known (.loadIndex nnn) ∧
    ∃ t, exec (.loadIndex nnn) s = .next t ∧ t.i.toNat = nnn.toNat ∧
      t.pc.toNat = (s.pc.toNat + 2) % 4096 ∧ ChangesOnly [.i, .pc] s t

/-- ADD I, Vx wraps mod 65536 and writes no flag, and the addresses from the new I are those of mod-4096 arithmetic
(rule R161, which rests on decision D8). -/
def Obligations.AddIndexWrapsAtSixteenBits : Prop :=
  ∀ (s : State) (x : Nibble),
    decode (formatXKK 0xF#4 x 0x1E#8) = .known (.addIndex x) ∧
    ∃ t, exec (.addIndex x) s = .next t ∧ t.i.toNat = (s.i.toNat + (s.getV x).toNat) % 65536 ∧
      (∀ k, t.indexAddr k = (s.i.toNat % 4096 + (s.getV x).toNat + k) % 4096) ∧
      t.pc.toNat = (s.pc.toNat + 2) % 4096 ∧ ChangesOnly [.i, .pc] s t

/-- LD F, Vx: the glyph of the low nibble (rule R162; the mask is decision D9). -/
def Obligations.LoadFontPointsAtGlyph : Prop :=
  ∀ (s : State) (x : Nibble),
    decode (formatXKK 0xF#4 x 0x29#8) = .known (.loadFont x) ∧
    ∃ t, exec (.loadFont x) s = .next t ∧ t.i.toNat = (s.getV x).toNat % 16 * 5 ∧
      t.pc.toNat = (s.pc.toNat + 2) % 4096 ∧ ChangesOnly [.i, .pc] s t

/-- LD B, Vx: rule R163. The three stored addresses are those the meaning writes, `indexAddr` 0, 1 and 2. -/
def Obligations.StoreBcdWritesThreeDigits : Prop :=
  ∀ (s : State) (x : Nibble), s.mem.wf →
    decode (formatXKK 0xF#4 x 0x33#8) = .known (.storeBcd x) ∧
    ∃ t, exec (.storeBcd x) s = .next t ∧
      (t.readByte (s.indexAddr 0)).toNat = (s.getV x).toNat / 100 ∧
      (t.readByte (s.indexAddr 1)).toNat = (s.getV x).toNat / 10 % 10 ∧
      (t.readByte (s.indexAddr 2)).toNat = (s.getV x).toNat % 10 ∧
      (∀ a < 4096, a ≠ s.indexAddr 0 → a ≠ s.indexAddr 1 → a ≠ s.indexAddr 2 → t.readByte a = s.readByte a) ∧
      (∀ k < 3, s.indexAddr k = (s.i.toNat + k) % 4096) ∧
      t.pc.toNat = (s.pc.toNat + 2) % 4096 ∧ ChangesOnly [.mem, .pc] s t

/-- LD [I], Vx: rule R164. -/
def Obligations.StoreRegsWritesV0ToVx : Prop :=
  ∀ (s : State) (x : Nibble), s.mem.wf →
    decode (formatXKK 0xF#4 x 0x55#8) = .known (.storeRegs x) ∧
    ∃ t, exec (.storeRegs x) s = .next t ∧
      (∀ k : Nibble, k ≤ x → s.indexAddr k.toNat = (s.i.toNat + k.toNat) % 4096 ∧
        t.readByte (s.indexAddr k.toNat) = s.getV k) ∧
      (∀ a < 4096, (∀ k : Nibble, k ≤ x → a ≠ s.indexAddr k.toNat) → t.readByte a = s.readByte a) ∧
      t.pc.toNat = (s.pc.toNat + 2) % 4096 ∧ ChangesOnly [.mem, .pc] s t

/-- LD Vx, [I]: rule R165. -/
def Obligations.LoadRegsReadsV0ToVx : Prop :=
  ∀ (s : State) (x : Nibble),
    decode (formatXKK 0xF#4 x 0x65#8) = .known (.loadRegs x) ∧
    ∃ t, exec (.loadRegs x) s = .next t ∧
      (∀ k : Nibble, k ≤ x → t.getV k = s.readByte ((s.i.toNat + k.toNat) % 4096)) ∧
      (∀ k : Nibble, x < k → t.getV k = s.getV k) ∧
      t.pc.toNat = (s.pc.toNat + 2) % 4096 ∧ ChangesOnly [.v, .pc] s t

/-- What LD [I], Vx stores, LD Vx, [I] loads back, whatever the registers became in between (rules R57, R164 and
R165). -/
def Obligations.LoadRegsUndoesStoreRegs : Prop :=
  ∀ (s : State) (x : Nibble), s.mem.wf →
    ∃ t, exec (.storeRegs x) s = .next t ∧
      ∀ v' : Vector Byte 16, ∃ u, exec (.loadRegs x) { t with v := v' } = .next u ∧
        (∀ k : Nibble, k ≤ x → u.getV k = s.getV k) ∧ u.i = s.i

/-- Self-modifying code: an LD [I], Vx that stores over the next instruction's two bytes is seen by the next fetch (rule
R63, which rests on decision D22). -/
def Obligations.FetchSeesTheStoreBeforeIt : Prop :=
  ∀ (s : State) (x : Nibble), s.mem.wf → 1#4 ≤ x → s.indexAddr 0 = (s.pc.toNat + 2) % 4096 →
    ∃ t, exec (.storeRegs x) s = .next t ∧
      t.fetchWord.toNat = (s.getV 0#4).toNat * 256 + (s.getV 1#4).toNat

/-- Two memories in canonical form that read the same at every address are the same data (the model's own choice of
form, notes/assumptions/5.md). -/
def Obligations.CanonicalMemoryIsUnique : Prop :=
  ∀ m m' : Memory, m.wf → m'.wf → (∀ a < 4096, Memory.read m a = Memory.read m' a) → m = m'

/-! ### Timers -/

/-- LD Vx, DT and LD DT, Vx: rules R170 and R171. -/
def Obligations.DelayInstructionsMoveBytes : Prop :=
  ∀ (s : State) (x : Nibble),
    decode (formatXKK 0xF#4 x 0x07#8) = .known (.loadDelay x) ∧
    decode (formatXKK 0xF#4 x 0x15#8) = .known (.setDelay x) ∧
    (∃ t, exec (.loadDelay x) s = .next t ∧ t.getV x = s.dt ∧ (∀ k, k ≠ x → t.getV k = s.getV k) ∧
      t.pc.toNat = (s.pc.toNat + 2) % 4096 ∧ ChangesOnly [.v, .pc] s t) ∧
    (∃ t, exec (.setDelay x) s = .next t ∧ t.dt = s.getV x ∧
      t.pc.toNat = (s.pc.toNat + 2) % 4096 ∧ ChangesOnly [.dt, .pc] s t)

/-- LD ST, Vx: rule R172. That SOUND is 1 exactly when ST is not 0 is decision D18. -/
def Obligations.SetSoundSetsStAndSound : Prop :=
  ∀ (s : State) (x : Nibble),
    decode (formatXKK 0xF#4 x 0x18#8) = .known (.setSound x) ∧
    ∃ t, exec (.setSound x) s = .next t ∧ t.st = s.getV x ∧ (t.sound = true ↔ s.getV x ≠ 0#8) ∧
      t.pc.toNat = (s.pc.toNat + 2) % 4096 ∧ ChangesOnly [.st, .pc] s t

/-- TICK(n), in every state, also during a key wait: both timers go down by n and floor at 0, nothing else changes (rule
R173, which rests on decision D27). -/
def Obligations.TickCountsBothTimersDown : Prop :=
  ∀ (s : State) (n : BitVec 32) (rest : List Transaction), s.schedule = .tick n :: rest →
    ∃ t, step s = .next t ∧ t.schedule = rest ∧
      t.dt.toNat = s.dt.toNat - n.toNat ∧ t.st.toNat = s.st.toNat - n.toNat ∧
      ChangesOnly [.dt, .st, .schedule] s t

/-- Two TICKs are one TICK of their sum (from rule R173; R42 gives n 32 bits). -/
def Obligations.TicksAddUp : Prop :=
  ∀ (s : State) (m n : BitVec 32), m.toNat + n.toNat < 2 ^ 32 →
    ∃ t u, tickTransaction m s = .next t ∧ tickTransaction n t = .next u ∧ tickTransaction (m + n) s = .next u

/-- Where an instruction other than Fx07, Fx15 and Fx18 completes, a TICK before it and a TICK after it end in the same
state (from rules R47 and R173). That it leaves the timers alone is said by Obligations.EachPartHasItsWriters. -/
def Obligations.TickCommutesWithOtherInstructions : Prop :=
  ∀ (i : Instr) (s t : State) (n : BitVec 32),
    (∀ x, i ≠ .loadDelay x) → (∀ x, i ≠ .setDelay x) → (∀ x, i ≠ .setSound x) →
    exec i s = .next t →
    ∃ s' u, tickTransaction n s = .next s' ∧ exec i s' = .next u ∧ tickTransaction n t = .next u

/-! ### Reset and boot -/

/-- The reset state, part by part (rules R38 and R230, with the readings of decision D26); FONT at its default
(notes/assumptions/7.md). -/
def Obligations.ResetStateIsAsListed : Prop :=
  (∀ k, State.reset.getV k = 0#8) ∧ State.reset.i = 0#16 ∧ State.reset.pc = 0x200#16 ∧
  (∀ j, (h : j < 16) → State.reset.stack[j]'h = 0#16) ∧ State.reset.sp = 0#8 ∧
  State.reset.dt = 0#8 ∧ State.reset.st = 0#8 ∧ defaultFont.length = 80 ∧
  (∀ a, (h : a < defaultFont.length) → State.reset.readByte a = defaultFont[a]) ∧
  (∀ a, 80 ≤ a → a < 4096 → State.reset.readByte a = 0#8) ∧
  State.reset.pix = 0#2048 ∧ State.reset.keys = 0#16 ∧ State.reset.w = none ∧ State.reset.prevKeys = 0#16

/-- FONT as a parameter: reset with any 80 font bytes holds them at 0x000 to 0x04F, 0 elsewhere, and is otherwise the
reset state, in canonical form (rules R6, R232 and R49). -/
def Obligations.ResetTakesAnyFont : Prop :=
  ∀ font : Vector Byte 80,
    (∀ a, (h : a < 80) → (State.resetWith font).readByte a = font[a]'h) ∧
    (∀ a, 80 ≤ a → a < 4096 → (State.resetWith font).readByte a = 0#8) ∧
    (State.resetWith font).mem.wf ∧ ChangesOnly [.mem] State.reset (State.resetWith font)

/-- LOAD before the first STEP: an image of at most 3584 bytes goes to 0x200 and on, a longer one stops the block with
RomTooLarge (rules R203 and R236, which rest on decision D31). That a LOAD out of its place is refused is the model's
own choice (notes/assumptions/4.md). -/
def Obligations.LoadCopiesTheImageOnce : Prop :=
  ∀ (s : State) (image : List Byte) (rest : List Transaction), s.schedule = .load image :: rest →
    (s.phase = .awaitingLoad → s.mem.wf → image.length ≤ 3584 →
      ∃ t, step s = .next t ∧ (∀ j, (h : j < image.length) → t.readByte (0x200 + j) = image[j]) ∧
        (∀ a < 4096, a < 0x200 ∨ 0x200 + image.length ≤ a → t.readByte a = s.readByte a) ∧
        t.phase = .started ∧ t.schedule = rest ∧ ChangesOnly [.mem, .phase, .schedule] s t) ∧
    (s.phase = .awaitingLoad → 3584 < image.length → step s = .fault .romTooLarge) ∧
    (s.phase = .started → step s = .refused .loadOutOfSequence)

/-! ### Invariants and whole-machine rules -/

/-- The reset state meets the invariant, and a host that has said nothing yet keeps its duty. -/
def Obligations.ResetIsSafe : Prop := Safe State.reset

/-- The invariant is kept by every transaction: pc below 4096, sp at most 16, every valid return address below 4096,
memory in canonical form, and a key wait parked on the Fx0A that began it (rules R24, R28, R29 and R31). -/
def Obligations.EveryStepKeepsTheInvariant : Prop :=
  ∀ s t : State, Inv s → step s = .next t → Inv t

/-- The block never stops by itself: from every state it can be in, under a host that keeps its duty about LOAD, every
step answers a next state, which is again such a state. No data, no instruction and no step error ends a run (rules
R201, R202 and R238). -/
def Obligations.SafeStepsNeverStop : Prop :=
  ∀ s : State, Safe s → ∃ t, step s = .next t ∧ Safe t

/-- And so for a run of any length (rule R238). -/
def Obligations.SafeRunsNeverStop : Prop :=
  ∀ (n : Nat) (s : State), Safe s → ∃ t, Sys2Proof.core.run n s = .next t ∧ Safe t

/-- A register changes only by an instruction that the "writes" column of rule R23 lists for it (the rows of 8xy6 and
8xyE rest on decision D5). -/
def Obligations.RegisterWritesFollowTheMatrix : Prop :=
  ∀ (i : Instr) (s t : State) (k : Nibble), exec i s = .next t → ¬ mayWriteV i k → t.getV k = s.getV k

/-- Who writes what: I only by Annn, Fx1E and Fx29 (R27), DT by Fx15 and ST by Fx18 (R30), W by Fx0A (R31), pixels by CLS
and DRW (R34), memory by Fx33 and Fx55 (R50), the stack by CALL and both it and sp by CALL and RET (R29), an error by
CALL and RET (R202); keys, prev_keys, the random byte and the host's schedule by no instruction (R32, R33, R41). -/
def Obligations.EachPartHasItsWriters : Prop :=
  ∀ (i : Instr) (s t : State), exec i s = .next t →
    (t.i ≠ s.i → (∃ nnn, i = .loadIndex nnn) ∨ (∃ x, i = .addIndex x) ∨ ∃ x, i = .loadFont x) ∧
    (t.dt ≠ s.dt → ∃ x, i = .setDelay x) ∧
    (t.st ≠ s.st → ∃ x, i = .setSound x) ∧
    (t.w ≠ s.w → ∃ x, i = .waitKey x) ∧
    (t.pix ≠ s.pix → i = .clearScreen ∨ ∃ x y n, i = .draw x y n) ∧
    ((∃ a, t.readByte a ≠ s.readByte a) → (∃ x, i = .storeBcd x) ∨ ∃ x, i = .storeRegs x) ∧
    (t.stack ≠ s.stack → ∃ nnn, i = .call nnn) ∧
    (t.sp ≠ s.sp → i = .ret ∨ ∃ nnn, i = .call nnn) ∧
    (t.result ≠ s.result → i = .ret ∨ ∃ nnn, i = .call nnn) ∧
    t.keys = s.keys ∧ t.prevKeys = s.prevKeys ∧ t.r = s.r ∧ t.draws = s.draws ∧ t.phase = s.phase ∧
    t.schedule = s.schedule

/-- Which instructions set pc otherwise than to p + 2: the table of rule R25 (marked derived by the spec). -/
def Obligations.OnlyControlTransfersLeaveTheSequence : Prop :=
  ∀ (i : Instr) (s t : State), exec i s = .next t → t.pc.toNat ≠ (s.pc.toNat + 2) % 4096 →
    i = .ret ∨ (∃ nnn, i = .jump nnn ∨ i = .call nnn ∨ i = .jumpOffset nnn) ∨
    ((∃ x kk, i = .skipEqImm x kk ∨ i = .skipNeImm x kk) ∨ (∃ x y, i = .skipEqReg x y ∨ i = .skipNeReg x y) ∨
      ∃ x, i = .skipKeyPressed x ∨ i = .skipKeyNotPressed x) ∧ t.pc.toNat = (s.pc.toNat + 4) % 4096 ∨
    (∃ x, i = .waitKey x) ∧ t.pc = s.pc

/-! ### What cannot be learnt -/

/-- Outside a key wait nothing depends on prev_keys: a STEP ends in the same state whatever it was (rules R32 and R37). -/
def Obligations.PrevKeysMatterOnlyToAWait : Prop :=
  ∀ (s : State) (r : Byte) (k : BitVec 16), s.w = none →
    stepTransaction r { s with prevKeys := k } = stepTransaction r s

/-- Cxkk is the only reader of the random byte: a STEP that runs no Cxkk ends the same for every r, but for the latched r
itself (rule R41). -/
def Obligations.OnlyRandomReadsTheRandomByte : Prop :=
  ∀ (s : State) (r r' : Byte), (s.w = none → ∀ x kk, decode s.fetchWord ≠ .known (.random x kk)) →
    stepTransaction r' s = mapNext (fun t => { t with r := r' }) (stepTransaction r s)

/-- Stack entries at or above sp are never read: two states that differ only there stay so, step by step (rule R28, with
the indexing of decision D14). -/
def Obligations.StaleStackEntriesAreUnobservable : Prop :=
  ∀ (s t : State) (stack' : Vector Word 16), s.sp.toNat ≤ 16 →
    (∀ j, (h : j < 16) → j < s.sp.toNat → stack'[j]'h = s.stack[j]'h) → step s = .next t →
    ∃ stack'', step { s with stack := stack' } = .next { t with stack := stack'' } ∧
      ∀ j, (h : j < 16) → j < t.sp.toNat → stack''[j]'h = t.stack[j]'h
end

