-- ==== Sys2Proof/Laws/Encoding.lean ====
section
/-! SUPPORT. The fields of a word laid out in a format (30_encoding.md rules R72 and R73) as numbers, and the two bytes
of a word. -/

namespace Sys2Proof

/-! ### Formats and fields as numbers -/

theorem append_toNat {m n : Nat} (a : BitVec m) (b : BitVec n) : (a ++ b).toNat = a.toNat * 2 ^ n + b.toNat := by
  rw [BitVec.toNat_append, Nat.shiftLeft_eq, Nat.mul_comm, ← Nat.two_pow_add_eq_or_of_lt b.isLt]

theorem formatNNN_toNat (t : Nibble) (nnn : Addr) :
    (formatNNN t nnn).toNat = t.toNat * 4096 + nnn.toNat := append_toNat t nnn

theorem formatXKK_toNat (t x : Nibble) (kk : Byte) :
    (formatXKK t x kk).toNat = t.toNat * 4096 + x.toNat * 256 + kk.toNat := by
  have h : (formatXKK t x kk).toNat = _ := append_toNat (t ++ x) kk
  rw [h, append_toNat]; omega

theorem formatXYF_toNat (t x y f : Nibble) :
    (formatXYF t x y f).toNat = t.toNat * 4096 + x.toNat * 256 + y.toNat * 16 + f.toNat := by
  have h : (formatXYF t x y f).toNat = _ := append_toNat (t ++ x) (y ++ f)
  have g := append_toNat y f
  rw [h, append_toNat]
  omega

theorem fieldT_toNat (op : Word) : (fieldT op).toNat = op.toNat / 4096 := by
  have := op.isLt
  simp [fieldT, Nat.shiftRight_eq_div_pow]; omega

theorem fieldX_toNat (op : Word) : (fieldX op).toNat = op.toNat / 256 % 16 := by
  simp [fieldX, Nat.shiftRight_eq_div_pow]

theorem fieldY_toNat (op : Word) : (fieldY op).toNat = op.toNat / 16 % 16 := by
  simp [fieldY, Nat.shiftRight_eq_div_pow]

theorem fieldN_toNat (op : Word) : (fieldN op).toNat = op.toNat % 16 := by
  simp [fieldN]

theorem fieldKk_toNat (op : Word) : (fieldKk op).toNat = op.toNat % 256 := by
  simp [fieldKk]

theorem fieldNnn_toNat (op : Word) : (fieldNnn op).toNat = op.toNat % 4096 := by
  simp [fieldNnn]

/-! ### Each field of each format -/

@[simp] theorem fieldT_formatNNN (t : Nibble) (nnn : Addr) : fieldT (formatNNN t nnn) = t := by
  apply BitVec.eq_of_toNat_eq; rw [fieldT_toNat, formatNNN_toNat]; omega

@[simp] theorem fieldNnn_formatNNN (t : Nibble) (nnn : Addr) : fieldNnn (formatNNN t nnn) = nnn := by
  apply BitVec.eq_of_toNat_eq; rw [fieldNnn_toNat, formatNNN_toNat]; omega

@[simp] theorem fieldT_formatXKK (t x : Nibble) (kk : Byte) : fieldT (formatXKK t x kk) = t := by
  apply BitVec.eq_of_toNat_eq; rw [fieldT_toNat, formatXKK_toNat]; omega

@[simp] theorem fieldX_formatXKK (t x : Nibble) (kk : Byte) : fieldX (formatXKK t x kk) = x := by
  apply BitVec.eq_of_toNat_eq; rw [fieldX_toNat, formatXKK_toNat]; omega

@[simp] theorem fieldKk_formatXKK (t x : Nibble) (kk : Byte) : fieldKk (formatXKK t x kk) = kk := by
  apply BitVec.eq_of_toNat_eq; rw [fieldKk_toNat, formatXKK_toNat]; omega

@[simp] theorem fieldT_formatXYF (t x y f : Nibble) : fieldT (formatXYF t x y f) = t := by
  apply BitVec.eq_of_toNat_eq; rw [fieldT_toNat, formatXYF_toNat]; omega

@[simp] theorem fieldX_formatXYF (t x y f : Nibble) : fieldX (formatXYF t x y f) = x := by
  apply BitVec.eq_of_toNat_eq; rw [fieldX_toNat, formatXYF_toNat]; omega

@[simp] theorem fieldY_formatXYF (t x y f : Nibble) : fieldY (formatXYF t x y f) = y := by
  apply BitVec.eq_of_toNat_eq; rw [fieldY_toNat, formatXYF_toNat]; omega

@[simp] theorem fieldN_formatXYF (t x y f : Nibble) : fieldN (formatXYF t x y f) = f := by
  apply BitVec.eq_of_toNat_eq; rw [fieldN_toNat, formatXYF_toNat]; omega

/-! ### A word is what its fields say -/

theorem formatNNN_fields (op : Word) : formatNNN (fieldT op) (fieldNnn op) = op := by
  apply BitVec.eq_of_toNat_eq; rw [formatNNN_toNat, fieldT_toNat, fieldNnn_toNat]; omega

theorem formatXKK_fields (op : Word) : formatXKK (fieldT op) (fieldX op) (fieldKk op) = op := by
  apply BitVec.eq_of_toNat_eq; rw [formatXKK_toNat, fieldT_toNat, fieldX_toNat, fieldKk_toNat]; omega

theorem formatXYF_fields (op : Word) : formatXYF (fieldT op) (fieldX op) (fieldY op) (fieldN op) = op := by
  apply BitVec.eq_of_toNat_eq
  rw [formatXYF_toNat, fieldT_toNat, fieldX_toNat, fieldY_toNat, fieldN_toNat]; omega

/-! ### Masks (R79) -/

theorem append_bit {m n : Nat} (a : BitVec m) (b : BitVec n) (i : Nat) :
    (a ++ b).getLsbD i = if i < n then b.getLsbD i else a.getLsbD (i - n) := BitVec.getLsbD_append

theorem formatNNN_bit (t : Nibble) (nnn : Addr) (i : Nat) :
    (formatNNN t nnn).getLsbD i = if i < 12 then nnn.getLsbD i else t.getLsbD (i - 12) := append_bit t nnn i

theorem formatXKK_bit (t x : Nibble) (kk : Byte) (i : Nat) :
    (formatXKK t x kk).getLsbD i =
      if i < 8 then kk.getLsbD i else if i - 8 < 4 then x.getLsbD (i - 8) else t.getLsbD (i - 8 - 4) :=
  (append_bit (t ++ x) kk i).trans (by rw [append_bit])

theorem formatXYF_bit (t x y f : Nibble) (i : Nat) :
    (formatXYF t x y f).getLsbD i =
      if i < 8 then (if i < 4 then f.getLsbD i else y.getLsbD (i - 4))
      else if i - 8 < 4 then x.getLsbD (i - 8) else t.getLsbD (i - 8 - 4) :=
  (append_bit (t ++ x) (y ++ f) i).trans (by rw [append_bit, append_bit])

/-- The mask 0xF000 keeps the primary nibble. -/
theorem and_F000 (op : Word) : op &&& 0xF000#16 = formatNNN (fieldT op) 0#12 := by
  apply BitVec.eq_of_getLsbD_eq
  intro i hi
  rw [formatNNN_bit]
  interval_cases i <;> simp [fieldT]

/-- The mask 0xF00F keeps the primary and the function nibble. -/
theorem and_F00F (op : Word) : op &&& 0xF00F#16 = formatXYF (fieldT op) 0#4 0#4 (fieldN op) := by
  apply BitVec.eq_of_getLsbD_eq
  intro i hi
  rw [formatXYF_bit]
  interval_cases i <;> simp [fieldT, fieldN]

/-- The mask 0xF0FF keeps the primary nibble and the function byte. -/
theorem and_F0FF (op : Word) : op &&& 0xF0FF#16 = formatXKK (fieldT op) 0#4 (fieldKk op) := by
  apply BitVec.eq_of_getLsbD_eq
  intro i hi
  rw [formatXKK_bit]
  interval_cases i <;> simp [fieldT, fieldKk]

/-! ### Bytes of a word -/

theorem wordOfBytes_toNat (hi lo : Byte) : (wordOfBytes hi lo).toNat = hi.toNat * 256 + lo.toNat :=
  append_toNat hi lo

theorem highByte_toNat (w : Word) : (highByte w).toNat = w.toNat / 256 := by
  have := w.isLt
  simp [highByte, Nat.shiftRight_eq_div_pow]; omega

theorem lowByte_toNat (w : Word) : (lowByte w).toNat = w.toNat % 256 := by
  simp [lowByte]

@[simp] theorem wordOfBytes_bytes (w : Word) : wordOfBytes (highByte w) (lowByte w) = w := by
  apply BitVec.eq_of_toNat_eq; rw [wordOfBytes_toNat, highByte_toNat, lowByte_toNat]; omega

end Sys2Proof
end

