-- ==== Sys2Proof/Laws/State.lean ====
section
/-! SUPPORT. One lemma per field per update, true by rfl, so that no later proof unfolds a record update; and for each
update what V, a byte of memory and the fetched word read as after it. -/

namespace Sys2Proof.Machine

variable (s : State)

/-! ### setV -/

@[simp] theorem State.setV_v (x : Nibble) (c : Byte) : (s.setV x c).v = s.v.set x.toNat c x.isLt := rfl
@[simp] theorem State.setV_i (x : Nibble) (c : Byte) : (s.setV x c).i = s.i := rfl
@[simp] theorem State.setV_pc (x : Nibble) (c : Byte) : (s.setV x c).pc = s.pc := rfl
@[simp] theorem State.setV_stack (x : Nibble) (c : Byte) : (s.setV x c).stack = s.stack := rfl
@[simp] theorem State.setV_sp (x : Nibble) (c : Byte) : (s.setV x c).sp = s.sp := rfl
@[simp] theorem State.setV_dt (x : Nibble) (c : Byte) : (s.setV x c).dt = s.dt := rfl
@[simp] theorem State.setV_st (x : Nibble) (c : Byte) : (s.setV x c).st = s.st := rfl
@[simp] theorem State.setV_mem (x : Nibble) (c : Byte) : (s.setV x c).mem = s.mem := rfl
@[simp] theorem State.setV_pix (x : Nibble) (c : Byte) : (s.setV x c).pix = s.pix := rfl
@[simp] theorem State.setV_keys (x : Nibble) (c : Byte) : (s.setV x c).keys = s.keys := rfl
@[simp] theorem State.setV_w (x : Nibble) (c : Byte) : (s.setV x c).w = s.w := rfl
@[simp] theorem State.setV_prevKeys (x : Nibble) (c : Byte) : (s.setV x c).prevKeys = s.prevKeys := rfl
@[simp] theorem State.setV_r (x : Nibble) (c : Byte) : (s.setV x c).r = s.r := rfl
@[simp] theorem State.setV_draws (x : Nibble) (c : Byte) : (s.setV x c).draws = s.draws := rfl
@[simp] theorem State.setV_result (x : Nibble) (c : Byte) : (s.setV x c).result = s.result := rfl
@[simp] theorem State.setV_phase (x : Nibble) (c : Byte) : (s.setV x c).phase = s.phase := rfl
@[simp] theorem State.setV_schedule (x : Nibble) (c : Byte) : (s.setV x c).schedule = s.schedule := rfl
@[simp] theorem State.setV_readByte (x : Nibble) (c : Byte) (b : Nat) : (s.setV x c).readByte b = s.readByte b := rfl
@[simp] theorem State.setV_fetchWord (x : Nibble) (c : Byte) : (s.setV x c).fetchWord = s.fetchWord := rfl

/-! ### setI -/

@[simp] theorem State.setI_v (a : Word) : (s.setI a).v = s.v := rfl
@[simp] theorem State.setI_i (a : Word) : (s.setI a).i = a := rfl
@[simp] theorem State.setI_pc (a : Word) : (s.setI a).pc = s.pc := rfl
@[simp] theorem State.setI_stack (a : Word) : (s.setI a).stack = s.stack := rfl
@[simp] theorem State.setI_sp (a : Word) : (s.setI a).sp = s.sp := rfl
@[simp] theorem State.setI_dt (a : Word) : (s.setI a).dt = s.dt := rfl
@[simp] theorem State.setI_st (a : Word) : (s.setI a).st = s.st := rfl
@[simp] theorem State.setI_mem (a : Word) : (s.setI a).mem = s.mem := rfl
@[simp] theorem State.setI_pix (a : Word) : (s.setI a).pix = s.pix := rfl
@[simp] theorem State.setI_keys (a : Word) : (s.setI a).keys = s.keys := rfl
@[simp] theorem State.setI_w (a : Word) : (s.setI a).w = s.w := rfl
@[simp] theorem State.setI_prevKeys (a : Word) : (s.setI a).prevKeys = s.prevKeys := rfl
@[simp] theorem State.setI_r (a : Word) : (s.setI a).r = s.r := rfl
@[simp] theorem State.setI_draws (a : Word) : (s.setI a).draws = s.draws := rfl
@[simp] theorem State.setI_result (a : Word) : (s.setI a).result = s.result := rfl
@[simp] theorem State.setI_phase (a : Word) : (s.setI a).phase = s.phase := rfl
@[simp] theorem State.setI_schedule (a : Word) : (s.setI a).schedule = s.schedule := rfl
@[simp] theorem State.setI_getV (a : Word) (k : Nibble) : (s.setI a).getV k = s.getV k := rfl
@[simp] theorem State.setI_readByte (a : Word) (b : Nat) : (s.setI a).readByte b = s.readByte b := rfl
@[simp] theorem State.setI_fetchWord (a : Word) : (s.setI a).fetchWord = s.fetchWord := rfl

/-! ### setPc -/

@[simp] theorem State.setPc_v (a : Word) : (s.setPc a).v = s.v := rfl
@[simp] theorem State.setPc_i (a : Word) : (s.setPc a).i = s.i := rfl
@[simp] theorem State.setPc_pc (a : Word) : (s.setPc a).pc = a := rfl
@[simp] theorem State.setPc_stack (a : Word) : (s.setPc a).stack = s.stack := rfl
@[simp] theorem State.setPc_sp (a : Word) : (s.setPc a).sp = s.sp := rfl
@[simp] theorem State.setPc_dt (a : Word) : (s.setPc a).dt = s.dt := rfl
@[simp] theorem State.setPc_st (a : Word) : (s.setPc a).st = s.st := rfl
@[simp] theorem State.setPc_mem (a : Word) : (s.setPc a).mem = s.mem := rfl
@[simp] theorem State.setPc_pix (a : Word) : (s.setPc a).pix = s.pix := rfl
@[simp] theorem State.setPc_keys (a : Word) : (s.setPc a).keys = s.keys := rfl
@[simp] theorem State.setPc_w (a : Word) : (s.setPc a).w = s.w := rfl
@[simp] theorem State.setPc_prevKeys (a : Word) : (s.setPc a).prevKeys = s.prevKeys := rfl
@[simp] theorem State.setPc_r (a : Word) : (s.setPc a).r = s.r := rfl
@[simp] theorem State.setPc_draws (a : Word) : (s.setPc a).draws = s.draws := rfl
@[simp] theorem State.setPc_result (a : Word) : (s.setPc a).result = s.result := rfl
@[simp] theorem State.setPc_phase (a : Word) : (s.setPc a).phase = s.phase := rfl
@[simp] theorem State.setPc_schedule (a : Word) : (s.setPc a).schedule = s.schedule := rfl
@[simp] theorem State.setPc_getV (a : Word) (k : Nibble) : (s.setPc a).getV k = s.getV k := rfl
@[simp] theorem State.setPc_readByte (a : Word) (b : Nat) : (s.setPc a).readByte b = s.readByte b := rfl

/-! ### setDt -/

@[simp] theorem State.setDt_v (c : Byte) : (s.setDt c).v = s.v := rfl
@[simp] theorem State.setDt_i (c : Byte) : (s.setDt c).i = s.i := rfl
@[simp] theorem State.setDt_pc (c : Byte) : (s.setDt c).pc = s.pc := rfl
@[simp] theorem State.setDt_stack (c : Byte) : (s.setDt c).stack = s.stack := rfl
@[simp] theorem State.setDt_sp (c : Byte) : (s.setDt c).sp = s.sp := rfl
@[simp] theorem State.setDt_dt (c : Byte) : (s.setDt c).dt = c := rfl
@[simp] theorem State.setDt_st (c : Byte) : (s.setDt c).st = s.st := rfl
@[simp] theorem State.setDt_mem (c : Byte) : (s.setDt c).mem = s.mem := rfl
@[simp] theorem State.setDt_pix (c : Byte) : (s.setDt c).pix = s.pix := rfl
@[simp] theorem State.setDt_keys (c : Byte) : (s.setDt c).keys = s.keys := rfl
@[simp] theorem State.setDt_w (c : Byte) : (s.setDt c).w = s.w := rfl
@[simp] theorem State.setDt_prevKeys (c : Byte) : (s.setDt c).prevKeys = s.prevKeys := rfl
@[simp] theorem State.setDt_r (c : Byte) : (s.setDt c).r = s.r := rfl
@[simp] theorem State.setDt_draws (c : Byte) : (s.setDt c).draws = s.draws := rfl
@[simp] theorem State.setDt_result (c : Byte) : (s.setDt c).result = s.result := rfl
@[simp] theorem State.setDt_phase (c : Byte) : (s.setDt c).phase = s.phase := rfl
@[simp] theorem State.setDt_schedule (c : Byte) : (s.setDt c).schedule = s.schedule := rfl
@[simp] theorem State.setDt_getV (c : Byte) (k : Nibble) : (s.setDt c).getV k = s.getV k := rfl
@[simp] theorem State.setDt_readByte (c : Byte) (b : Nat) : (s.setDt c).readByte b = s.readByte b := rfl
@[simp] theorem State.setDt_fetchWord (c : Byte) : (s.setDt c).fetchWord = s.fetchWord := rfl

/-! ### setSt -/

@[simp] theorem State.setSt_v (c : Byte) : (s.setSt c).v = s.v := rfl
@[simp] theorem State.setSt_i (c : Byte) : (s.setSt c).i = s.i := rfl
@[simp] theorem State.setSt_pc (c : Byte) : (s.setSt c).pc = s.pc := rfl
@[simp] theorem State.setSt_stack (c : Byte) : (s.setSt c).stack = s.stack := rfl
@[simp] theorem State.setSt_sp (c : Byte) : (s.setSt c).sp = s.sp := rfl
@[simp] theorem State.setSt_dt (c : Byte) : (s.setSt c).dt = s.dt := rfl
@[simp] theorem State.setSt_st (c : Byte) : (s.setSt c).st = c := rfl
@[simp] theorem State.setSt_mem (c : Byte) : (s.setSt c).mem = s.mem := rfl
@[simp] theorem State.setSt_pix (c : Byte) : (s.setSt c).pix = s.pix := rfl
@[simp] theorem State.setSt_keys (c : Byte) : (s.setSt c).keys = s.keys := rfl
@[simp] theorem State.setSt_w (c : Byte) : (s.setSt c).w = s.w := rfl
@[simp] theorem State.setSt_prevKeys (c : Byte) : (s.setSt c).prevKeys = s.prevKeys := rfl
@[simp] theorem State.setSt_r (c : Byte) : (s.setSt c).r = s.r := rfl
@[simp] theorem State.setSt_draws (c : Byte) : (s.setSt c).draws = s.draws := rfl
@[simp] theorem State.setSt_result (c : Byte) : (s.setSt c).result = s.result := rfl
@[simp] theorem State.setSt_phase (c : Byte) : (s.setSt c).phase = s.phase := rfl
@[simp] theorem State.setSt_schedule (c : Byte) : (s.setSt c).schedule = s.schedule := rfl
@[simp] theorem State.setSt_getV (c : Byte) (k : Nibble) : (s.setSt c).getV k = s.getV k := rfl
@[simp] theorem State.setSt_readByte (c : Byte) (b : Nat) : (s.setSt c).readByte b = s.readByte b := rfl
@[simp] theorem State.setSt_fetchWord (c : Byte) : (s.setSt c).fetchWord = s.fetchWord := rfl

/-! ### setW -/

@[simp] theorem State.setW_v (o : Option Nibble) : (s.setW o).v = s.v := rfl
@[simp] theorem State.setW_i (o : Option Nibble) : (s.setW o).i = s.i := rfl
@[simp] theorem State.setW_pc (o : Option Nibble) : (s.setW o).pc = s.pc := rfl
@[simp] theorem State.setW_stack (o : Option Nibble) : (s.setW o).stack = s.stack := rfl
@[simp] theorem State.setW_sp (o : Option Nibble) : (s.setW o).sp = s.sp := rfl
@[simp] theorem State.setW_dt (o : Option Nibble) : (s.setW o).dt = s.dt := rfl
@[simp] theorem State.setW_st (o : Option Nibble) : (s.setW o).st = s.st := rfl
@[simp] theorem State.setW_mem (o : Option Nibble) : (s.setW o).mem = s.mem := rfl
@[simp] theorem State.setW_pix (o : Option Nibble) : (s.setW o).pix = s.pix := rfl
@[simp] theorem State.setW_keys (o : Option Nibble) : (s.setW o).keys = s.keys := rfl
@[simp] theorem State.setW_w (o : Option Nibble) : (s.setW o).w = o := rfl
@[simp] theorem State.setW_prevKeys (o : Option Nibble) : (s.setW o).prevKeys = s.prevKeys := rfl
@[simp] theorem State.setW_r (o : Option Nibble) : (s.setW o).r = s.r := rfl
@[simp] theorem State.setW_draws (o : Option Nibble) : (s.setW o).draws = s.draws := rfl
@[simp] theorem State.setW_result (o : Option Nibble) : (s.setW o).result = s.result := rfl
@[simp] theorem State.setW_phase (o : Option Nibble) : (s.setW o).phase = s.phase := rfl
@[simp] theorem State.setW_schedule (o : Option Nibble) : (s.setW o).schedule = s.schedule := rfl
@[simp] theorem State.setW_getV (o : Option Nibble) (k : Nibble) : (s.setW o).getV k = s.getV k := rfl
@[simp] theorem State.setW_readByte (o : Option Nibble) (b : Nat) : (s.setW o).readByte b = s.readByte b := rfl
@[simp] theorem State.setW_fetchWord (o : Option Nibble) : (s.setW o).fetchWord = s.fetchWord := rfl

/-! ### setKeys -/

@[simp] theorem State.setKeys_v (ks : BitVec 16) : (s.setKeys ks).v = s.v := rfl
@[simp] theorem State.setKeys_i (ks : BitVec 16) : (s.setKeys ks).i = s.i := rfl
@[simp] theorem State.setKeys_pc (ks : BitVec 16) : (s.setKeys ks).pc = s.pc := rfl
@[simp] theorem State.setKeys_stack (ks : BitVec 16) : (s.setKeys ks).stack = s.stack := rfl
@[simp] theorem State.setKeys_sp (ks : BitVec 16) : (s.setKeys ks).sp = s.sp := rfl
@[simp] theorem State.setKeys_dt (ks : BitVec 16) : (s.setKeys ks).dt = s.dt := rfl
@[simp] theorem State.setKeys_st (ks : BitVec 16) : (s.setKeys ks).st = s.st := rfl
@[simp] theorem State.setKeys_mem (ks : BitVec 16) : (s.setKeys ks).mem = s.mem := rfl
@[simp] theorem State.setKeys_pix (ks : BitVec 16) : (s.setKeys ks).pix = s.pix := rfl
@[simp] theorem State.setKeys_keys (ks : BitVec 16) : (s.setKeys ks).keys = ks := rfl
@[simp] theorem State.setKeys_w (ks : BitVec 16) : (s.setKeys ks).w = s.w := rfl
@[simp] theorem State.setKeys_prevKeys (ks : BitVec 16) : (s.setKeys ks).prevKeys = s.prevKeys := rfl
@[simp] theorem State.setKeys_r (ks : BitVec 16) : (s.setKeys ks).r = s.r := rfl
@[simp] theorem State.setKeys_draws (ks : BitVec 16) : (s.setKeys ks).draws = s.draws := rfl
@[simp] theorem State.setKeys_result (ks : BitVec 16) : (s.setKeys ks).result = s.result := rfl
@[simp] theorem State.setKeys_phase (ks : BitVec 16) : (s.setKeys ks).phase = s.phase := rfl
@[simp] theorem State.setKeys_schedule (ks : BitVec 16) : (s.setKeys ks).schedule = s.schedule := rfl
@[simp] theorem State.setKeys_getV (ks : BitVec 16) (k : Nibble) : (s.setKeys ks).getV k = s.getV k := rfl
@[simp] theorem State.setKeys_readByte (ks : BitVec 16) (b : Nat) : (s.setKeys ks).readByte b = s.readByte b := rfl
@[simp] theorem State.setKeys_fetchWord (ks : BitVec 16) : (s.setKeys ks).fetchWord = s.fetchWord := rfl

/-! ### setPix -/

@[simp] theorem State.setPix_v (p : BitVec 2048) : (s.setPix p).v = s.v := rfl
@[simp] theorem State.setPix_i (p : BitVec 2048) : (s.setPix p).i = s.i := rfl
@[simp] theorem State.setPix_pc (p : BitVec 2048) : (s.setPix p).pc = s.pc := rfl
@[simp] theorem State.setPix_stack (p : BitVec 2048) : (s.setPix p).stack = s.stack := rfl
@[simp] theorem State.setPix_sp (p : BitVec 2048) : (s.setPix p).sp = s.sp := rfl
@[simp] theorem State.setPix_dt (p : BitVec 2048) : (s.setPix p).dt = s.dt := rfl
@[simp] theorem State.setPix_st (p : BitVec 2048) : (s.setPix p).st = s.st := rfl
@[simp] theorem State.setPix_mem (p : BitVec 2048) : (s.setPix p).mem = s.mem := rfl
@[simp] theorem State.setPix_pix (p : BitVec 2048) : (s.setPix p).pix = p := rfl
@[simp] theorem State.setPix_keys (p : BitVec 2048) : (s.setPix p).keys = s.keys := rfl
@[simp] theorem State.setPix_w (p : BitVec 2048) : (s.setPix p).w = s.w := rfl
@[simp] theorem State.setPix_prevKeys (p : BitVec 2048) : (s.setPix p).prevKeys = s.prevKeys := rfl
@[simp] theorem State.setPix_r (p : BitVec 2048) : (s.setPix p).r = s.r := rfl
@[simp] theorem State.setPix_draws (p : BitVec 2048) : (s.setPix p).draws = s.draws := rfl
@[simp] theorem State.setPix_result (p : BitVec 2048) : (s.setPix p).result = s.result := rfl
@[simp] theorem State.setPix_phase (p : BitVec 2048) : (s.setPix p).phase = s.phase := rfl
@[simp] theorem State.setPix_schedule (p : BitVec 2048) : (s.setPix p).schedule = s.schedule := rfl
@[simp] theorem State.setPix_getV (p : BitVec 2048) (k : Nibble) : (s.setPix p).getV k = s.getV k := rfl
@[simp] theorem State.setPix_readByte (p : BitVec 2048) (b : Nat) : (s.setPix p).readByte b = s.readByte b := rfl
@[simp] theorem State.setPix_fetchWord (p : BitVec 2048) : (s.setPix p).fetchWord = s.fetchWord := rfl

/-! ### raise -/

@[simp] theorem State.raise_v (e : StepResult) : (s.raise e).v = s.v := rfl
@[simp] theorem State.raise_i (e : StepResult) : (s.raise e).i = s.i := rfl
@[simp] theorem State.raise_pc (e : StepResult) : (s.raise e).pc = s.pc := rfl
@[simp] theorem State.raise_stack (e : StepResult) : (s.raise e).stack = s.stack := rfl
@[simp] theorem State.raise_sp (e : StepResult) : (s.raise e).sp = s.sp := rfl
@[simp] theorem State.raise_dt (e : StepResult) : (s.raise e).dt = s.dt := rfl
@[simp] theorem State.raise_st (e : StepResult) : (s.raise e).st = s.st := rfl
@[simp] theorem State.raise_mem (e : StepResult) : (s.raise e).mem = s.mem := rfl
@[simp] theorem State.raise_pix (e : StepResult) : (s.raise e).pix = s.pix := rfl
@[simp] theorem State.raise_keys (e : StepResult) : (s.raise e).keys = s.keys := rfl
@[simp] theorem State.raise_w (e : StepResult) : (s.raise e).w = s.w := rfl
@[simp] theorem State.raise_prevKeys (e : StepResult) : (s.raise e).prevKeys = s.prevKeys := rfl
@[simp] theorem State.raise_r (e : StepResult) : (s.raise e).r = s.r := rfl
@[simp] theorem State.raise_draws (e : StepResult) : (s.raise e).draws = s.draws := rfl
@[simp] theorem State.raise_result (e : StepResult) : (s.raise e).result = e := rfl
@[simp] theorem State.raise_phase (e : StepResult) : (s.raise e).phase = s.phase := rfl
@[simp] theorem State.raise_schedule (e : StepResult) : (s.raise e).schedule = s.schedule := rfl
@[simp] theorem State.raise_getV (e : StepResult) (k : Nibble) : (s.raise e).getV k = s.getV k := rfl
@[simp] theorem State.raise_readByte (e : StepResult) (b : Nat) : (s.raise e).readByte b = s.readByte b := rfl
@[simp] theorem State.raise_fetchWord (e : StepResult) : (s.raise e).fetchWord = s.fetchWord := rfl

/-! ### writeByte -/

@[simp] theorem State.writeByte_v (a : Nat) (c : Byte) : (s.writeByte a c).v = s.v := rfl
@[simp] theorem State.writeByte_i (a : Nat) (c : Byte) : (s.writeByte a c).i = s.i := rfl
@[simp] theorem State.writeByte_pc (a : Nat) (c : Byte) : (s.writeByte a c).pc = s.pc := rfl
@[simp] theorem State.writeByte_stack (a : Nat) (c : Byte) : (s.writeByte a c).stack = s.stack := rfl
@[simp] theorem State.writeByte_sp (a : Nat) (c : Byte) : (s.writeByte a c).sp = s.sp := rfl
@[simp] theorem State.writeByte_dt (a : Nat) (c : Byte) : (s.writeByte a c).dt = s.dt := rfl
@[simp] theorem State.writeByte_st (a : Nat) (c : Byte) : (s.writeByte a c).st = s.st := rfl
@[simp] theorem State.writeByte_mem (a : Nat) (c : Byte) : (s.writeByte a c).mem = Memory.write s.mem (wrapAddr a) c := rfl
@[simp] theorem State.writeByte_pix (a : Nat) (c : Byte) : (s.writeByte a c).pix = s.pix := rfl
@[simp] theorem State.writeByte_keys (a : Nat) (c : Byte) : (s.writeByte a c).keys = s.keys := rfl
@[simp] theorem State.writeByte_w (a : Nat) (c : Byte) : (s.writeByte a c).w = s.w := rfl
@[simp] theorem State.writeByte_prevKeys (a : Nat) (c : Byte) : (s.writeByte a c).prevKeys = s.prevKeys := rfl
@[simp] theorem State.writeByte_r (a : Nat) (c : Byte) : (s.writeByte a c).r = s.r := rfl
@[simp] theorem State.writeByte_draws (a : Nat) (c : Byte) : (s.writeByte a c).draws = s.draws := rfl
@[simp] theorem State.writeByte_result (a : Nat) (c : Byte) : (s.writeByte a c).result = s.result := rfl
@[simp] theorem State.writeByte_phase (a : Nat) (c : Byte) : (s.writeByte a c).phase = s.phase := rfl
@[simp] theorem State.writeByte_schedule (a : Nat) (c : Byte) : (s.writeByte a c).schedule = s.schedule := rfl
@[simp] theorem State.writeByte_getV (a : Nat) (c : Byte) (k : Nibble) : (s.writeByte a c).getV k = s.getV k := rfl

/-! ### beginStep -/

@[simp] theorem State.beginStep_v (b : Byte) : (s.beginStep b).v = s.v := rfl
@[simp] theorem State.beginStep_i (b : Byte) : (s.beginStep b).i = s.i := rfl
@[simp] theorem State.beginStep_pc (b : Byte) : (s.beginStep b).pc = s.pc := rfl
@[simp] theorem State.beginStep_stack (b : Byte) : (s.beginStep b).stack = s.stack := rfl
@[simp] theorem State.beginStep_sp (b : Byte) : (s.beginStep b).sp = s.sp := rfl
@[simp] theorem State.beginStep_dt (b : Byte) : (s.beginStep b).dt = s.dt := rfl
@[simp] theorem State.beginStep_st (b : Byte) : (s.beginStep b).st = s.st := rfl
@[simp] theorem State.beginStep_mem (b : Byte) : (s.beginStep b).mem = s.mem := rfl
@[simp] theorem State.beginStep_pix (b : Byte) : (s.beginStep b).pix = s.pix := rfl
@[simp] theorem State.beginStep_keys (b : Byte) : (s.beginStep b).keys = s.keys := rfl
@[simp] theorem State.beginStep_w (b : Byte) : (s.beginStep b).w = s.w := rfl
@[simp] theorem State.beginStep_prevKeys (b : Byte) : (s.beginStep b).prevKeys = s.prevKeys := rfl
@[simp] theorem State.beginStep_r (b : Byte) : (s.beginStep b).r = b := rfl
@[simp] theorem State.beginStep_draws (b : Byte) : (s.beginStep b).draws = s.draws := rfl
@[simp] theorem State.beginStep_result (b : Byte) : (s.beginStep b).result = .ok := rfl
@[simp] theorem State.beginStep_phase (b : Byte) : (s.beginStep b).phase = .started := rfl
@[simp] theorem State.beginStep_schedule (b : Byte) : (s.beginStep b).schedule = s.schedule := rfl
@[simp] theorem State.beginStep_getV (b : Byte) (k : Nibble) : (s.beginStep b).getV k = s.getV k := rfl
@[simp] theorem State.beginStep_readByte (b : Byte) (a : Nat) : (s.beginStep b).readByte a = s.readByte a := rfl
@[simp] theorem State.beginStep_fetchWord (b : Byte) : (s.beginStep b).fetchWord = s.fetchWord := rfl

/-! ### endStep -/

@[simp] theorem State.endStep_v : s.endStep.v = s.v := rfl
@[simp] theorem State.endStep_i : s.endStep.i = s.i := rfl
@[simp] theorem State.endStep_pc : s.endStep.pc = s.pc := rfl
@[simp] theorem State.endStep_stack : s.endStep.stack = s.stack := rfl
@[simp] theorem State.endStep_sp : s.endStep.sp = s.sp := rfl
@[simp] theorem State.endStep_dt : s.endStep.dt = s.dt := rfl
@[simp] theorem State.endStep_st : s.endStep.st = s.st := rfl
@[simp] theorem State.endStep_mem : s.endStep.mem = s.mem := rfl
@[simp] theorem State.endStep_pix : s.endStep.pix = s.pix := rfl
@[simp] theorem State.endStep_keys : s.endStep.keys = s.keys := rfl
@[simp] theorem State.endStep_w : s.endStep.w = s.w := rfl
@[simp] theorem State.endStep_prevKeys : s.endStep.prevKeys = s.keys := rfl
@[simp] theorem State.endStep_r : s.endStep.r = s.r := rfl
@[simp] theorem State.endStep_draws : s.endStep.draws = s.draws := rfl
@[simp] theorem State.endStep_result : s.endStep.result = s.result := rfl
@[simp] theorem State.endStep_phase : s.endStep.phase = s.phase := rfl
@[simp] theorem State.endStep_schedule : s.endStep.schedule = s.schedule := rfl
@[simp] theorem State.endStep_getV (k : Nibble) : s.endStep.getV k = s.getV k := rfl
@[simp] theorem State.endStep_readByte (b : Nat) : s.endStep.readByte b = s.readByte b := rfl
@[simp] theorem State.endStep_fetchWord : s.endStep.fetchWord = s.fetchWord := rfl

/-! ### advance -/

@[simp] theorem State.advance_v : s.advance.v = s.v := rfl
@[simp] theorem State.advance_i : s.advance.i = s.i := rfl
@[simp] theorem State.advance_pc : s.advance.pc = pcAdd s.pc 2 := rfl
@[simp] theorem State.advance_stack : s.advance.stack = s.stack := rfl
@[simp] theorem State.advance_sp : s.advance.sp = s.sp := rfl
@[simp] theorem State.advance_dt : s.advance.dt = s.dt := rfl
@[simp] theorem State.advance_st : s.advance.st = s.st := rfl
@[simp] theorem State.advance_mem : s.advance.mem = s.mem := rfl
@[simp] theorem State.advance_pix : s.advance.pix = s.pix := rfl
@[simp] theorem State.advance_keys : s.advance.keys = s.keys := rfl
@[simp] theorem State.advance_w : s.advance.w = s.w := rfl
@[simp] theorem State.advance_prevKeys : s.advance.prevKeys = s.prevKeys := rfl
@[simp] theorem State.advance_r : s.advance.r = s.r := rfl
@[simp] theorem State.advance_draws : s.advance.draws = s.draws := rfl
@[simp] theorem State.advance_result : s.advance.result = s.result := rfl
@[simp] theorem State.advance_phase : s.advance.phase = s.phase := rfl
@[simp] theorem State.advance_schedule : s.advance.schedule = s.schedule := rfl
@[simp] theorem State.advance_getV (k : Nibble) : s.advance.getV k = s.getV k := rfl
@[simp] theorem State.advance_readByte (b : Nat) : s.advance.readByte b = s.readByte b := rfl

end Sys2Proof.Machine
end

