-- ==== Sys2Proof/Laws/Memory.lean ====
section
/-! SUPPORT. The laws of memory (20_memory.md rules R52, R57, R60): a read after a write, the canonical form kept by every
memory operation, and equal memories for equal contents. -/

namespace Sys2Proof.Machine

/-! ### Reading after writing -/

theorem Memory.read_cons (a : Nat) (c : Byte) (m : Memory) (b : Nat) :
    Memory.read (Memory.cons a c m) b =
      if b = a then (if c = initialByte a then Memory.read m b else c) else Memory.read m b := by
  unfold Memory.cons
  split <;> simp [Memory.read]

/-- An address below every listed one reads as reset left it. -/
theorem Memory.read_below {m : Memory} {a : Nat} (h : ∀ x ∈ m, a < x.1) : Memory.read m a = initialByte a := by
  induction m with
  | nil => rfl
  | cons x m ih =>
    have hx : a ≠ x.1 := Nat.ne_of_lt (h x (by simp))
    rw [Memory.read, if_neg hx]
    exact ih fun y hy => h y (by simp [hy])

/-- One spec for a write: the written address reads the written byte, every other address reads as before (R57). -/
theorem Memory.read_write {m : Memory} (hm : m.Pairwise (fun c d => c.1 < d.1)) (a b : Nat) (c : Byte) :
    Memory.read (Memory.write m a c) b = if b = a then c else Memory.read m b := by
  induction m with
  | nil =>
    simp only [Memory.write, Memory.read_cons, Memory.read]
    split <;> [(split <;> simp_all); rfl]
  | cons x m ih =>
    obtain ⟨e, d⟩ := x
    obtain ⟨hx, hm⟩ := List.pairwise_cons.mp hm
    have below : ∀ n, n < e → Memory.read ((e, d) :: m) n = initialByte n := fun n hn =>
      Memory.read_below fun y hy => by
        rcases List.mem_cons.mp hy with rfl | hy
        · exact hn
        · exact Nat.lt_trans hn (hx y hy)
    rw [Memory.write]
    split
    · rename_i hlt
      rw [Memory.read_cons]
      split
      · rename_i hba
        split
        · rename_i hc; rw [hba, below a hlt, hc]
        · rfl
      · rfl
    · split
      · rename_i _ hae
        subst hae
        have mem_a : Memory.read m a = initialByte a := Memory.read_below hx
        rw [Memory.read_cons]
        by_cases hba : b = a
        · subst hba
          simp only [if_true]
          split
          · rename_i hc; rw [mem_a, hc]
          · rfl
        · simp [hba, Memory.read]
      · rename_i _ hne
        simp only [Memory.read, ih hm]
        by_cases hbe : b = e
        · have : b ≠ a := fun h => hne (h ▸ hbe)
          simp [hbe]
          intro h; exact absurd h.symm hne
        · simp [hbe]

/-! ### The canonical form -/

theorem Memory.mem_cons_of {a : Nat} {c : Byte} {m : Memory} {x : Host.Cell} (h : x ∈ Memory.cons a c m) :
    (x = (a, c) ∧ c ≠ initialByte a) ∨ x ∈ m := by
  unfold Memory.cons at h
  split at h
  · exact .inr h
  · rcases List.mem_cons.mp h with h | h
    · exact .inl ⟨h, by assumption⟩
    · exact .inr h

theorem Memory.mem_write_of {m : Memory} {a : Nat} {c : Byte} {x : Host.Cell} (h : x ∈ Memory.write m a c) :
    (x = (a, c) ∧ c ≠ initialByte a) ∨ x ∈ m := by
  induction m with
  | nil => exact Memory.mem_cons_of h
  | cons y m ih =>
    rw [Memory.write] at h
    split at h
    · exact Memory.mem_cons_of h
    · split at h
      · rcases Memory.mem_cons_of h with h | h
        · exact .inl h
        · exact .inr (List.mem_cons_of_mem _ h)
      · rcases List.mem_cons.mp h with h | h
        · exact .inr (h ▸ List.mem_cons_self)
        · rcases ih h with h | h
          · exact .inl h
          · exact .inr (List.mem_cons_of_mem _ h)

theorem Memory.pairwise_cons_of {a : Nat} {c : Byte} {m : Memory} (hm : m.Pairwise (fun c d => c.1 < d.1))
    (ha : ∀ x ∈ m, a < x.1) : (Memory.cons a c m).Pairwise (fun c d => c.1 < d.1) := by
  unfold Memory.cons
  split
  · exact hm
  · exact List.pairwise_cons.mpr ⟨ha, hm⟩

theorem Memory.pairwise_write {m : Memory} (hm : m.Pairwise (fun c d => c.1 < d.1)) (a : Nat) (c : Byte) :
    (Memory.write m a c).Pairwise (fun c d => c.1 < d.1) := by
  induction m with
  | nil => exact Memory.pairwise_cons_of .nil (by simp)
  | cons x m ih =>
    obtain ⟨e, d⟩ := x
    obtain ⟨hx, hm'⟩ := List.pairwise_cons.mp hm
    rw [Memory.write]
    split
    · rename_i hlt
      refine Memory.pairwise_cons_of hm fun y hy => ?_
      rcases List.mem_cons.mp hy with rfl | hy
      · exact hlt
      · exact Nat.lt_trans hlt (hx y hy)
    · split
      · rename_i _ hae
        exact Memory.pairwise_cons_of hm' fun y hy => hae ▸ hx y hy
      · refine List.pairwise_cons.mpr ⟨fun y hy => ?_, ih hm'⟩
        rcases Memory.mem_write_of hy with ⟨rfl, _⟩ | hy
        · simp only; omega
        · exact hx y hy

/-- A write below 4096 keeps the canonical form. -/
theorem Memory.wf_write {m : Memory} (hm : m.wf) {a : Nat} (ha : a < Config.memSize) (c : Byte) :
    (Memory.write m a c).wf := by
  refine ⟨Memory.pairwise_write hm.1 a c, fun x hx => ?_⟩
  rcases Memory.mem_write_of hx with ⟨rfl, hc⟩ | hx
  · exact ⟨ha, hc⟩
  · exact hm.2 x hx

theorem wrapAddr_lt (a : Nat) : wrapAddr a < Config.memSize := Nat.mod_lt _ (by decide)

@[simp] theorem wrapAddr_wrapAddr (a : Nat) : wrapAddr (wrapAddr a) = wrapAddr a := by simp [wrapAddr]

/-! ### The same of the state's operations -/

theorem State.writeByte_wf {s : State} (h : s.mem.wf) (a : Nat) (c : Byte) : (s.writeByte a c).mem.wf :=
  Memory.wf_write h (wrapAddr_lt a) c

/-- One spec for a byte written through the state, addresses reduced mod 4096 (R52, R57). -/
theorem State.readByte_writeByte {s : State} (h : s.mem.wf) (a b : Nat) (c : Byte) :
    (s.writeByte a c).readByte b = if wrapAddr b = wrapAddr a then c else s.readByte b :=
  Memory.read_write h.1 (wrapAddr a) (wrapAddr b) c

theorem State.writeBytes_wf {s : State} (h : s.mem.wf) (a : Nat) (cs : List Byte) : (s.writeBytes a cs).mem.wf := by
  induction cs generalizing s a with
  | nil => exact h
  | cons c cs ih => exact ih (State.writeByte_wf h a c) (a + 1)

theorem State.storeUpTo_wf {s : State} (h : s.mem.wf) (n : Nat) : (State.storeUpTo n s).mem.wf := by
  induction n with
  | zero => exact h
  | succ n ih => exact State.writeByte_wf ih _ _

theorem State.placeWord_wf {s : State} (h : s.mem.wf) (op : Word) : (s.placeWord op).mem.wf :=
  State.writeByte_wf (State.writeByte_wf h _ _) _ _

/-- The reset memory is in canonical form. -/
theorem State.reset_mem_wf : State.reset.mem.wf := by decide

end Sys2Proof.Machine
end

