-- ==== Sys2Proof/Laws/Ops.lean ====
section
/-! SUPPORT. One spec lemma for each shared operation over registers, pc, stack, pixels, sprites, register runs, keys and
outcomes: what it can do, said once. -/

namespace Sys2Proof.Machine

variable {s t : State}

/-! ### V registers -/

/-- A register after a write (R20). -/
theorem State.getV_setV (s : State) (x k : Nibble) (c : Byte) :
    (s.setV x c).getV k = if k = x then c else s.getV k := by
  unfold State.getV State.setV
  simp only [Vector.getElem_set, BitVec.toNat_inj, eq_comm (a := x)]

@[simp] theorem State.getV_setV_same (s : State) (x : Nibble) (c : Byte) : (s.setV x c).getV x = c := by
  simp [State.getV_setV]

/-- A result and its flag: VF holds the flag, x (when it is not F) the result, the rest is as before (R21). -/
theorem State.getV_setResultFlag (s : State) (x k : Nibble) (c : Byte) (f : Bool) :
    (s.setResultFlag x c f).getV k = if k = vf then flagByte f else if k = x then c else s.getV k := by
  simp [State.setResultFlag, State.getV_setV]

theorem flagByte_toNat (b : Bool) : (flagByte b).toNat = if b then 1 else 0 := by cases b <;> rfl

/-! ### pc -/

theorem pcAdd_toNat (p : Word) (k : Nat) : (pcAdd p k).toNat = (p.toNat + k) % 4096 := by
  simp only [pcAdd, Config.memSize, BitVec.toNat_ofNat]; omega

/-- The skip rule (R110): pc is the only part that changes. -/
theorem State.skipIf_eq (s : State) (c : Bool) : s.skipIf c = s.setPc (pcAdd s.pc (if c then 4 else 2)) := by
  cases c <;> rfl

/-! ### The call stack -/

/-- PUSH, all of it (R29). -/
theorem State.push_spec (s : State) (a : Word) :
    (∃ h : s.sp.toNat < 16, s.push a = some { s with stack := s.stack.set s.sp.toNat a h, sp := s.sp + 1#8 }) ∨
    (16 ≤ s.sp.toNat ∧ s.push a = none) := by
  unfold State.push
  split
  · rename_i h; exact .inl ⟨h, rfl⟩
  · rename_i h; exact .inr ⟨Nat.le_of_not_lt h, rfl⟩

/-- POP, all of it (R29). -/
theorem State.pop_spec (s : State) :
    (∃ h : s.sp.toNat - 1 < 16, 0 < s.sp.toNat ∧ s.sp.toNat ≤ 16 ∧
      s.pop = some ({ s with sp := s.sp - 1#8 }, s.stack[s.sp.toNat - 1]'h)) ∨
    ((s.sp.toNat = 0 ∨ 16 < s.sp.toNat) ∧ s.pop = none) := by
  unfold State.pop
  split
  · rename_i h
    have h' : 0 < s.sp.toNat ∧ s.sp.toNat ≤ 16 := h
    exact .inl ⟨by omega, h'.1, h'.2, rfl⟩
  · rename_i h
    refine .inr ⟨?_, rfl⟩
    simp only [Config.stackDepth] at h
    omega

theorem sp_add_one (c : Byte) (h : c.toNat < 16) : (c + 1#8).toNat = c.toNat + 1 := by
  rw [BitVec.toNat_add]; simp only [BitVec.toNat_ofNat]; omega

theorem sp_sub_one (c : Byte) (h : 0 < c.toNat) : (c - 1#8).toNat = c.toNat - 1 := by
  have := c.isLt
  rw [BitVec.toNat_sub]; simp only [BitVec.toNat_ofNat]; omega

/-! ### Pixels -/

/-- One pixel inverted, every other as before (R140). -/
theorem pixelOf_fbXor (p : BitVec 2048) {px py qx qy : Nat} (hpx : px < 64) (hqx : qx < 64) (hqy : qy < 32) :
    pixelOf (fbXor p px py) qx qy = (pixelOf p qx qy ^^ (decide (qx = px ∧ qy = py))) := by
  unfold pixelOf fbXor
  rw [BitVec.getLsbD_xor, BitVec.getLsbD_twoPow]
  congr 1
  rw [Bool.eq_iff_iff]
  simp only [pixelIndex, Config.displayW, Bool.and_eq_true, decide_eq_true_eq]
  constructor
  · rintro ⟨-, h⟩
    have := of_decide_eq_true h
    omega
  · rintro ⟨h₁, h₂⟩
    exact ⟨decide_eq_true (by omega), decide_eq_true (by omega)⟩

@[simp] theorem pixelOf_fbClear (px py : Nat) : pixelOf fbClear px py = false := by simp [pixelOf, fbClear]

/-- Equal at every pixel is equal. -/
theorem pix_ext {p q : BitVec 2048} (h : ∀ px < 64, ∀ py < 32, pixelOf p px py = pixelOf q px py) : p = q := by
  apply BitVec.eq_of_getLsbD_eq
  intro k hk
  have := h (k % 64) (Nat.mod_lt _ (by decide)) (k / 64) (by omega)
  simpa only [pixelOf, pixelIndex, Config.displayW, show k / 64 * 64 + k % 64 = k by omega] using this

/-! ### Runs of registers -/

@[simp] theorem State.storeUpTo_v (s : State) (n : Nat) : (State.storeUpTo n s).v = s.v := by
  induction n with
  | zero => rfl
  | succ n ih => exact ih

/-- A run of stores changes memory and nothing else. -/
theorem State.storeUpTo_eq (s : State) (n : Nat) :
    State.storeUpTo n s = { s with mem := (State.storeUpTo n s).mem } := by
  induction n with
  | zero => rfl
  | succ n ih => simp only [State.storeUpTo]; rw [ih]; rfl

/-- A run of at most 16 stores: byte k of it is V[k], every other byte is as before (R164). -/
theorem State.readByte_storeUpTo {s : State} (hs : s.mem.wf) {n : Nat} (hn : n ≤ 16) :
    (∀ k < n, (State.storeUpTo n s).readByte (s.indexAddr k) = s.getV (regIndex k)) ∧
    (∀ a, (∀ k < n, wrapAddr a ≠ s.indexAddr k) → (State.storeUpTo n s).readByte a = s.readByte a) := by
  induction n with
  | zero => exact ⟨fun k hk => absurd hk (Nat.not_lt_zero k), fun a _ => rfl⟩
  | succ n ih =>
    obtain ⟨ih₁, ih₂⟩ := ih (by omega)
    have hv : (State.storeUpTo n s).getV (regIndex n) = s.getV (regIndex n) := by
      simp [State.getV]
    have hi : (State.storeUpTo n s).indexAddr n = s.indexAddr n := by rw [State.storeUpTo_eq]; rfl
    have hw := State.storeUpTo_wf hs n
    have hwrap : wrapAddr (s.indexAddr n) = s.indexAddr n := wrapAddr_wrapAddr _
    constructor
    · intro k hk
      simp only [State.storeUpTo, hi, hv, State.readByte_writeByte hw]
      have hk' : wrapAddr (s.indexAddr k) = s.indexAddr k := wrapAddr_wrapAddr _
      rw [hk', hwrap]
      by_cases h : k = n
      · subst h; simp
      · have : s.indexAddr k ≠ s.indexAddr n := by simp only [State.indexAddr, wrapAddr, Config.memSize]; omega
        rw [if_neg this]
        exact ih₁ k (by omega)
    · intro a ha
      simp only [State.storeUpTo, hi, State.readByte_writeByte hw, hwrap]
      rw [if_neg (ha n (by omega))]
      exact ih₂ a fun k hk => ha k (by omega)

/-- A run of loads changes V and nothing else. -/
theorem State.loadUpTo_eq (s : State) (n : Nat) : State.loadUpTo n s = { s with v := (State.loadUpTo n s).v } := by
  induction n with
  | zero => rfl
  | succ n ih => simp only [State.loadUpTo]; rw [ih]; rfl

/-- A run of at most 16 loads: V[k] below n is byte k of it, the rest is as before (R165). -/
theorem State.getV_loadUpTo (s : State) {n : Nat} (hn : n ≤ 16) (k : Nibble) :
    (State.loadUpTo n s).getV k = if k.toNat < n then s.readByte (s.indexAddr k.toNat) else s.getV k := by
  induction n with
  | zero => rfl
  | succ n ih =>
    have hr : (State.loadUpTo n s).readByte ((State.loadUpTo n s).indexAddr n) = s.readByte (s.indexAddr n) := by
      rw [State.loadUpTo_eq]; rfl
    simp only [State.loadUpTo, State.getV_setV, hr, ih (by omega)]
    have hk : k = regIndex n ↔ k.toNat = n := by
      rw [← BitVec.toNat_inj]; simp only [regIndex, BitVec.toNat_ofNat]; omega
    by_cases h : k.toNat = n
    · rw [if_pos (hk.mpr h), if_pos (by omega), h]
    · rw [if_neg (fun c => h (hk.mp c))]
      by_cases h2 : k.toNat < n
      · rw [if_pos h2, if_pos (by omega)]
      · rw [if_neg h2, if_neg (by omega)]

/-- A block of bytes written through the state changes memory and nothing else. -/
theorem State.writeBytes_eq (s : State) (a : Nat) (cs : List Byte) :
    s.writeBytes a cs = { s with mem := (s.writeBytes a cs).mem } := by
  induction cs generalizing s a with
  | nil => rfl
  | cons c cs ih => simp only [State.writeBytes]; rw [ih]; rfl

/-- A block of bytes that does not pass 0xFFF: byte j of it at a + j, every other byte as before (R236). -/
theorem State.readByte_writeBytes {s : State} (hs : s.mem.wf) (a : Nat) (cs : List Byte)
    (ha : a + cs.length ≤ 4096) {b : Nat} (hb : b < 4096) :
    (s.writeBytes a cs).readByte b =
      if h : a ≤ b ∧ b < a + cs.length then cs[b - a]'(by omega) else s.readByte b := by
  induction cs generalizing s a with
  | nil => rw [dif_neg (by simp only [List.length_nil]; omega)]; rfl
  | cons c cs ih =>
    simp only [List.length_cons] at ha
    rw [State.writeBytes, ih (State.writeByte_wf hs a c) (a + 1) (by omega)]
    by_cases h : a + 1 ≤ b ∧ b < a + 1 + cs.length
    · rw [dif_pos h, dif_pos (by simp only [List.length_cons]; omega)]
      rw [List.getElem_cons]
      rw [dif_neg (by omega)]
      congr 1
    · rw [dif_neg h, State.readByte_writeByte hs]
      have : wrapAddr b = b ∧ wrapAddr a = a := by simp only [wrapAddr, Config.memSize]; omega
      rw [this.1, this.2]
      by_cases hba : b = a
      · subst hba
        rw [if_pos rfl, dif_pos (by simp only [List.length_cons]; omega)]
        simp
      · rw [if_neg hba, dif_neg (by simp only [List.length_cons]; omega)]

/-! ### Keys -/

/-- The lowest key of a set: none for the empty set, else an index in it with no lower one (R153). -/
theorem lowestKey_spec (ks : BitVec 16) :
    (lowestKey ks = none ∧ ∀ k < 16, ks.getLsbD k = false) ∨
    ∃ k < 16, lowestKey ks = some k ∧ ks.getLsbD k = true ∧ ∀ j < k, ks.getLsbD j = false := by
  unfold lowestKey
  rcases h : (List.range 16).find? (fun k => ks.getLsbD k) with _ | k
  · refine .inl ⟨rfl, fun k hk => ?_⟩
    have := List.find?_eq_none.mp h k (List.mem_range.mpr hk)
    simpa using this
  · obtain ⟨hk, hm, hj⟩ := List.find?_range_eq_some.mp h
    exact .inr ⟨k, List.mem_range.mp hm, rfl, hk, fun j h => by simpa using hj j h⟩

/-! ### Outcomes -/

@[simp] theorem mapNext_next (f : State → State) (s : State) : mapNext f (.next s) = .next (f s) := rfl
@[simp] theorem mapNext_fault (f : State → State) (e : Fault) : mapNext f (.fault e) = .fault e := rfl
@[simp] theorem mapNext_refused (f : State → State) (e : Refusal) : mapNext f (.refused e) = .refused e := rfl

theorem mapNext_eq_next {f : State → State} {o : Host.Outcome State Fault Refusal} (h : mapNext f o = .next t) :
    ∃ u, o = .next u ∧ f u = t := by
  cases o with
  | next u => exact ⟨u, rfl, by simpa using h⟩
  | fault e => simp at h
  | refused e => simp at h

/-! ### The next transaction -/

/-- Which transaction comes next, and what taking it off the schedule changes. -/
theorem nextTransaction_spec (s : State) :
    (∃ a rest, s.schedule = a :: rest ∧ nextTransaction s = (a, { s with schedule := rest })) ∨
    (s.schedule = [] ∧
      nextTransaction s = (.step (Config.randomByte s.draws), { s with draws := s.draws + 1 })) := by
  unfold nextTransaction
  cases h : s.schedule with
  | nil => exact .inr ⟨rfl, rfl⟩
  | cons a rest => exact .inl ⟨a, rest, rfl, rfl⟩

/-! ### Placing an instruction -/

/-- The next fetch reads the placed word (20_memory.md R53). -/
theorem State.fetchWord_placeWord {s : State} (hs : s.mem.wf) (op : Word) : (s.placeWord op).fetchWord = op := by
  have h₁ := State.writeByte_wf hs s.pc.toNat (highByte op)
  have hpc : (s.placeWord op).pc = s.pc := rfl
  have hne : wrapAddr s.pc.toNat ≠ wrapAddr (s.pc.toNat + 1) := by
    simp only [wrapAddr, Config.memSize]; omega
  rw [State.fetchWord, hpc, State.placeWord, State.readByte_writeByte h₁, State.readByte_writeByte h₁,
    State.readByte_writeByte hs, if_neg hne, if_pos rfl, if_pos rfl, wordOfBytes_bytes]

end Sys2Proof.Machine
end

