-- ==== Sys2Proof/Laws/Display.lean ====
section
/-! SUPPORT. What the sprite loops of DRW do (43_display.md rule R142), said once: each pixel that is covered by a 1 bit is
inverted, the others stay, and the collision is noted exactly when a covered pixel was set. The positions of one draw
are distinct, so the order of the loops does not matter. -/

namespace Sys2Proof.Machine

/-- A 1 bit in the first m columns of row byte b covers column qx. -/
def rowCovers (b : Byte) (xs m qx : Nat) : Prop :=
  ∃ col < m, b.getLsbD (7 - col) = true ∧ qx = (xs + col) % 64

/-- A 1 bit in the first n rows of the sprite covers (qx, qy). -/
def rowsCover (s : State) (xs ys n qx qy : Nat) : Prop :=
  ∃ row < n, rowCovers (s.readByte (s.i.toNat + row)) xs 8 qx ∧ qy = (ys + row) % 32

theorem rowCovers_succ (b : Byte) (xs m qx : Nat) :
    rowCovers b xs (m + 1) qx ↔ rowCovers b xs m qx ∨ (b.getLsbD (7 - m) = true ∧ qx = (xs + m) % 64) := by
  constructor
  · rintro ⟨col, hc, hb, hq⟩
    rcases Nat.lt_succ_iff_lt_or_eq.mp hc with h | rfl
    · exact .inl ⟨col, h, hb, hq⟩
    · exact .inr ⟨hb, hq⟩
  · rintro (⟨col, hc, h⟩ | h)
    · exact ⟨col, by omega, h⟩
    · exact ⟨m, by omega, h⟩

theorem rowsCover_succ (s : State) (xs ys n qx qy : Nat) :
    rowsCover s xs ys (n + 1) qx qy ↔
      rowsCover s xs ys n qx qy ∨
        (rowCovers (s.readByte (s.i.toNat + n)) xs 8 qx ∧ qy = (ys + n) % 32) := by
  constructor
  · rintro ⟨row, hr, h⟩
    rcases Nat.lt_succ_iff_lt_or_eq.mp hr with h' | rfl
    · exact .inl ⟨row, h', h⟩
    · exact .inr h
  · rintro (⟨row, hr, h⟩ | h)
    · exact ⟨row, by omega, h⟩
    · exact ⟨n, by omega, h⟩

/-- The columns of one row: m of them, from buffer p and flag c. -/
theorem drawColumns_spec (b : Byte) (xs : Nat) {py : Nat} (hpy : py < 32) (p : BitVec 2048) (c : Bool) {m : Nat}
    (hm : m ≤ 8) :
    (∀ qx < 64, ∀ qy < 32,
      (pixelOf ((List.range m).foldl (drawColumn b xs py) (p, c)).1 qx qy = true ↔
        ¬ (pixelOf p qx qy = true ↔ rowCovers b xs m qx ∧ qy = py))) ∧
    (((List.range m).foldl (drawColumn b xs py) (p, c)).2 = true ↔
      c = true ∨ ∃ qx, rowCovers b xs m qx ∧ pixelOf p qx py = true) := by
  induction m with
  | zero => simp [rowCovers]
  | succ m ih =>
    obtain ⟨ih₁, ih₂⟩ := ih (by omega)
    rw [List.range_succ, List.foldl_append]
    generalize (List.range m).foldl (drawColumn b xs py) (p, c) = acc at ih₁ ih₂ ⊢
    simp only [List.foldl_cons, List.foldl_nil, drawColumn, Config.displayW, rowCovers_succ]
    have hx : (xs + m) % 64 < 64 := Nat.mod_lt _ (by decide)
    have hfresh : ¬ rowCovers b xs m ((xs + m) % 64) := by
      rintro ⟨col, hc, -, hq⟩; omega
    have hold : pixelOf acc.1 ((xs + m) % 64) py = true ↔ pixelOf p ((xs + m) % 64) py = true := by
      have := ih₁ _ hx py hpy
      simp only [hfresh, false_and, iff_false, not_not] at this
      exact this
    by_cases hb : b.getLsbD (7 - m) = true
    · rw [if_pos hb]
      constructor
      · intro qx hqx qy hqy
        rw [pixelOf_fbXor _ hx hqx hqy]
        by_cases hq : qx = (xs + m) % 64 ∧ qy = py
        · obtain ⟨rfl, rfl⟩ := hq
          simp only [and_self, decide_true, Bool.xor_true, Bool.not_eq_true', hb, or_true, iff_true,
            Bool.not_eq_true, ← hold]
        · rw [decide_eq_false hq, Bool.xor_false, ih₁ qx hqx qy hqy]
          simp only [hb, true_and, or_and_right]
          rw [or_iff_left hq]
      · simp only [Bool.or_eq_true, ih₂, hold, hb, true_and]
        constructor
        · rintro ((h | ⟨qx, h, h'⟩) | h)
          · exact .inl h
          · exact .inr ⟨qx, .inl h, h'⟩
          · exact .inr ⟨_, .inr rfl, h⟩
        · rintro (h | ⟨qx, h | rfl, h'⟩)
          · exact .inl (.inl h)
          · exact .inl (.inr ⟨qx, h, h'⟩)
          · exact .inr h'
    · rw [if_neg hb]
      rw [Bool.not_eq_true] at hb
      simp only [hb, Bool.false_eq_true, false_and, or_false]
      exact ⟨ih₁, ih₂⟩

/-- The whole sprite: n rows of 8 columns, n at most 32. -/
theorem drawSprite_spec (s : State) (xs ys : Nat) {n : Nat} (hn : n ≤ 32) :
    (∀ qx < 64, ∀ qy < 32,
      (pixelOf (drawSprite s xs ys n).1 qx qy = true ↔
        ¬ (pixelOf s.pix qx qy = true ↔ rowsCover s xs ys n qx qy))) ∧
    ((drawSprite s xs ys n).2 = true ↔ ∃ qx qy, rowsCover s xs ys n qx qy ∧ pixelOf s.pix qx qy = true) := by
  unfold drawSprite
  induction n with
  | zero => simp [rowsCover]
  | succ n ih =>
    obtain ⟨ih₁, ih₂⟩ := ih (by omega)
    rw [List.range_succ, List.foldl_append]
    generalize (List.range n).foldl (drawRow s xs ys) (s.pix, false) = acc at ih₁ ih₂ ⊢
    simp only [List.foldl_cons, List.foldl_nil, drawRow, Config.displayH, rowsCover_succ]
    have hy : (ys + n) % 32 < 32 := Nat.mod_lt _ (by decide)
    have hb : s.readByte (s.indexAddr n) = s.readByte (s.i.toNat + n) := by
      simp only [State.readByte, State.indexAddr, wrapAddr_wrapAddr]
    rw [hb]
    obtain ⟨row₁, row₂⟩ := drawColumns_spec (s.readByte (s.i.toNat + n)) xs hy acc.1 acc.2 (Nat.le_refl 8)
    have hfresh : ∀ qx, ¬ rowsCover s xs ys n qx ((ys + n) % 32) := by
      rintro qx ⟨row, hr, -, hq⟩; omega
    have hold : ∀ qx < 64, (pixelOf acc.1 qx ((ys + n) % 32) = true ↔ pixelOf s.pix qx ((ys + n) % 32) = true) := by
      intro qx hqx
      have := ih₁ qx hqx _ hy
      simp only [hfresh, iff_false, not_not] at this
      exact this
    constructor
    · intro qx hqx qy hqy
      rw [row₁ qx hqx qy hqy, ih₁ qx hqx qy hqy]
      by_cases hq : qy = (ys + n) % 32
      · subst hq
        simp only [hfresh, and_true, false_or, iff_false, not_not]
      · simp [hq]
    · rw [row₂, ih₂]
      constructor
      · rintro (⟨qx, qy, h, h'⟩ | ⟨qx, h, h'⟩)
        · exact ⟨qx, qy, .inl h, h'⟩
        · have hqx : qx < 64 := by obtain ⟨col, -, -, rfl⟩ := h; exact Nat.mod_lt _ (by decide)
          exact ⟨qx, _, .inr ⟨h, rfl⟩, (hold qx hqx).mp h'⟩
      · rintro ⟨qx, qy, h | ⟨h, rfl⟩, h'⟩
        · exact .inl ⟨qx, qy, h, h'⟩
        · have hqx : qx < 64 := by obtain ⟨col, -, -, rfl⟩ := h; exact Nat.mod_lt _ (by decide)
          exact .inr ⟨qx, h, (hold qx hqx).mpr h'⟩

/-- The covered pixels, in the words of Safety.lean. -/
theorem rowsCover_iff (s : State) (xs ys n qx qy : Nat) :
    rowsCover s xs ys n qx qy ↔ spriteCovers s xs ys n qx qy := by
  constructor
  · rintro ⟨row, hr, ⟨col, hc, hb, hx⟩, hy⟩; exact ⟨row, col, hr, hc, hb, hx, hy⟩
  · rintro ⟨row, col, hr, hc, hb, hx, hy⟩; exact ⟨row, hr, ⟨col, hc, hb, hx⟩, hy⟩

end Sys2Proof.Machine
end

