-- ==== Sys2Proof/Laws/Exec.lean ====
section
/-! SUPPORT. What CALL, RET, the wait check, the timers, LOAD and a STEP can do, each said once (41_control_flow.md rules R101
and R103, 44_keys_wait.md rule R153, 46_timers.md rule R173, 70_reset_and_hazards.md rule R236, 30_encoding.md rule
R80). -/

namespace Sys2Proof.Machine

variable {s t : State}

/-- CALL that answers a next state: it pushed and jumped, or it reported the overflow (R103). -/
theorem execCall_cases {nnn : Addr} (h : execCall nnn s = .next t) :
    (∃ hs : s.sp.toNat < 16,
      t = ({ s with stack := s.stack.set s.sp.toNat (pcAdd s.pc 2) hs, sp := s.sp + 1#8 } : State).setPc
        (zextAddr nnn)) ∨
    (s.sp.toNat = 16 ∧ t = s.raise (.stackOverflow s.pc)) := by
  unfold execCall at h
  split at h
  · rename_i hl
    simp only [State.spLegal, Config.stackDepth, decide_eq_true_eq] at hl
    rcases s.push_spec (pcAdd s.pc 2) with ⟨hs, hp⟩ | ⟨hs, hp⟩ <;> rw [hp] at h <;> cases h
    · exact .inl ⟨hs, rfl⟩
    · exact .inr ⟨by omega, rfl⟩
  · cases h

/-- RET that answers a next state: it popped, or it reported the underflow (R101). -/
theorem execRet_cases (h : execRet s = .next t) :
    (∃ hs : s.sp.toNat - 1 < 16, 0 < s.sp.toNat ∧ s.sp.toNat ≤ 16 ∧
      t = ({ s with sp := s.sp - 1#8 } : State).setPc (s.stack[s.sp.toNat - 1]'hs)) ∨
    (s.sp.toNat = 0 ∧ t = s.raise (.stackUnderflow s.pc)) := by
  unfold execRet at h
  split at h
  · rename_i hl
    simp only [State.spLegal, Config.stackDepth, decide_eq_true_eq] at hl
    rcases s.pop_spec with ⟨hs, h₁, h₂, hp⟩ | ⟨hs, hp⟩ <;> rw [hp] at h <;> cases h
    · exact .inl ⟨hs, h₁, h₂, rfl⟩
    · exact .inr ⟨by omega, rfl⟩
  · cases h

/-- The wait check: nothing, or the lowest new key stored, the wait over and pc moved on (R153). -/
theorem State.waitCheck_spec (s : State) (x : Nibble) :
    ((∀ k < 16, s.newKeys.getLsbD k = false) ∧ s.waitCheck x = s) ∨
    ∃ k < 16, s.newKeys.getLsbD k = true ∧ (∀ j < k, s.newKeys.getLsbD j = false) ∧
      s.waitCheck x = ((s.setV x (zextNibble (regIndex k))).setW none).advance := by
  unfold State.waitCheck
  rcases lowestKey_spec s.newKeys with ⟨h, hk⟩ | ⟨k, hk, h, h₁, h₂⟩ <;> rw [h]
  · exact .inl ⟨hk, rfl⟩
  · exact .inr ⟨k, hk, h₁, h₂, rfl⟩

/-- A timer after n ticks: the difference, floored at 0 (R173). -/
theorem countDown_toNat (c : Byte) (n : BitVec 32) : (countDown c n).toNat = c.toNat - n.toNat := by
  have := c.isLt
  unfold countDown
  split <;> simp only [BitVec.toNat_ofNat] <;> omega

/-- LOAD that answers a next state (R236). -/
theorem loadTransaction_cases {image : List Byte} (h : loadTransaction image s = .next t) :
    s.phase = .awaitingLoad ∧ image.length ≤ 3584 ∧ t = { s.writeBytes 0x200 image with phase := .started } := by
  unfold loadTransaction at h
  split at h
  · cases h
  · rename_i hp
    split at h
    · rename_i hl; cases h; exact ⟨hp, hl, rfl⟩
    · cases h

/-- A STEP that answers a next state: the wait check, an unknown word, or exec of the decoded instruction (R80). -/
theorem stepTransaction_cases {r : Byte} (h : stepTransaction r s = .next t) :
    (∃ x, s.w = some x ∧ t = ((s.beginStep r).waitCheck x).endStep) ∨
    (∃ op, s.w = none ∧ decode s.fetchWord = .unknown op ∧ t = ((s.beginStep r).unknownWord op).endStep) ∨
    (∃ i u, s.w = none ∧ decode s.fetchWord = .known i ∧ exec i (s.beginStep r) = .next u ∧ t = u.endStep) := by
  obtain ⟨u, hu, rfl⟩ := mapNext_eq_next h
  unfold stepBody at hu
  split at hu
  · rename_i x hx; cases hu; exact .inl ⟨x, hx, rfl⟩
  · rename_i hw
    split at hu
    · rename_i op ho; cases hu; exact .inr (.inl ⟨op, hw, ho, rfl⟩)
    · rename_i i hi; exact .inr (.inr ⟨i, u, hw, hi, hu, rfl⟩)

end Sys2Proof.Machine
end

