-- ==== Sys2Proof/Laws/PerInstr.lean ====
section
/-! SUPPORT. Statements about every instruction as syntax, one lemma per constructor. EncodeMatchesRow: the word of an
instruction, under the mask of its opcode-table row, is the row's match value (30_encoding.md rules R79 and R84). -/

namespace Sys2Proof.Laws.EncodeMatchesRow

/-- The word of i matches the opcode-map row with i's number. -/
def Statement (i : Instr) : Prop :=
  ∃ row, opcodeTable[i.tag]? = some row ∧ row.tag = i.tag ∧ encode i &&& row.mask = row.pattern

theorem nnn_matches (t : Nibble) (nnn : Addr) : formatNNN t nnn &&& 0xF000#16 = formatNNN t 0#12 := by
  rw [and_F000, fieldT_formatNNN]

theorem xkk_matches (t x : Nibble) (kk : Byte) : formatXKK t x kk &&& 0xF000#16 = formatNNN t 0#12 := by
  rw [and_F000, fieldT_formatXKK]

theorem xyn_matches (t x y n : Nibble) : formatXYF t x y n &&& 0xF000#16 = formatNNN t 0#12 := by
  rw [and_F000, fieldT_formatXYF]

theorem xyf_matches (t x y f : Nibble) : formatXYF t x y f &&& 0xF00F#16 = formatXYF t 0#4 0#4 f := by
  rw [and_F00F, fieldT_formatXYF, fieldN_formatXYF]

theorem xff_matches (t x : Nibble) (ff : Byte) : formatXKK t x ff &&& 0xF0FF#16 = formatXKK t 0#4 ff := by
  rw [and_F0FF, fieldT_formatXKK, fieldKk_formatXKK]

theorem sys (nnn : Addr) : Statement (.sys nnn) := ⟨_, rfl, rfl, nnn_matches _ _⟩
theorem clearScreen : Statement .clearScreen := ⟨_, rfl, rfl, by decide⟩
theorem ret : Statement .ret := ⟨_, rfl, rfl, by decide⟩
theorem jump (nnn : Addr) : Statement (.jump nnn) := ⟨_, rfl, rfl, nnn_matches _ _⟩
theorem call (nnn : Addr) : Statement (.call nnn) := ⟨_, rfl, rfl, nnn_matches _ _⟩
theorem skipEqImm (x : Nibble) (kk : Byte) : Statement (.skipEqImm x kk) := ⟨_, rfl, rfl, xkk_matches _ _ _⟩
theorem skipNeImm (x : Nibble) (kk : Byte) : Statement (.skipNeImm x kk) := ⟨_, rfl, rfl, xkk_matches _ _ _⟩
theorem skipEqReg (x y : Nibble) : Statement (.skipEqReg x y) := ⟨_, rfl, rfl, xyf_matches _ _ _ _⟩
theorem loadImmediate (x : Nibble) (kk : Byte) : Statement (.loadImmediate x kk) := ⟨_, rfl, rfl, xkk_matches _ _ _⟩
theorem addImmediate (x : Nibble) (kk : Byte) : Statement (.addImmediate x kk) := ⟨_, rfl, rfl, xkk_matches _ _ _⟩
theorem loadReg (x y : Nibble) : Statement (.loadReg x y) := ⟨_, rfl, rfl, xyf_matches _ _ _ _⟩
theorem orReg (x y : Nibble) : Statement (.orReg x y) := ⟨_, rfl, rfl, xyf_matches _ _ _ _⟩
theorem andReg (x y : Nibble) : Statement (.andReg x y) := ⟨_, rfl, rfl, xyf_matches _ _ _ _⟩
theorem xorReg (x y : Nibble) : Statement (.xorReg x y) := ⟨_, rfl, rfl, xyf_matches _ _ _ _⟩
theorem addVxVy (x y : Nibble) : Statement (.addVxVy x y) := ⟨_, rfl, rfl, xyf_matches _ _ _ _⟩
theorem subVxVy (x y : Nibble) : Statement (.subVxVy x y) := ⟨_, rfl, rfl, xyf_matches _ _ _ _⟩
theorem shiftRight (x y : Nibble) : Statement (.shiftRight x y) := ⟨_, rfl, rfl, xyf_matches _ _ _ _⟩
theorem subNVxVy (x y : Nibble) : Statement (.subNVxVy x y) := ⟨_, rfl, rfl, xyf_matches _ _ _ _⟩
theorem shiftLeft (x y : Nibble) : Statement (.shiftLeft x y) := ⟨_, rfl, rfl, xyf_matches _ _ _ _⟩
theorem skipNeReg (x y : Nibble) : Statement (.skipNeReg x y) := ⟨_, rfl, rfl, xyf_matches _ _ _ _⟩
theorem loadIndex (nnn : Addr) : Statement (.loadIndex nnn) := ⟨_, rfl, rfl, nnn_matches _ _⟩
theorem jumpOffset (nnn : Addr) : Statement (.jumpOffset nnn) := ⟨_, rfl, rfl, nnn_matches _ _⟩
theorem random (x : Nibble) (kk : Byte) : Statement (.random x kk) := ⟨_, rfl, rfl, xkk_matches _ _ _⟩
theorem draw (x y n : Nibble) : Statement (.draw x y n) := ⟨_, rfl, rfl, xyn_matches _ _ _ _⟩
theorem skipKeyPressed (x : Nibble) : Statement (.skipKeyPressed x) := ⟨_, rfl, rfl, xff_matches _ _ _⟩
theorem skipKeyNotPressed (x : Nibble) : Statement (.skipKeyNotPressed x) := ⟨_, rfl, rfl, xff_matches _ _ _⟩
theorem loadDelay (x : Nibble) : Statement (.loadDelay x) := ⟨_, rfl, rfl, xff_matches _ _ _⟩
theorem waitKey (x : Nibble) : Statement (.waitKey x) := ⟨_, rfl, rfl, xff_matches _ _ _⟩
theorem setDelay (x : Nibble) : Statement (.setDelay x) := ⟨_, rfl, rfl, xff_matches _ _ _⟩
theorem setSound (x : Nibble) : Statement (.setSound x) := ⟨_, rfl, rfl, xff_matches _ _ _⟩
theorem addIndex (x : Nibble) : Statement (.addIndex x) := ⟨_, rfl, rfl, xff_matches _ _ _⟩
theorem loadFont (x : Nibble) : Statement (.loadFont x) := ⟨_, rfl, rfl, xff_matches _ _ _⟩
theorem storeBcd (x : Nibble) : Statement (.storeBcd x) := ⟨_, rfl, rfl, xff_matches _ _ _⟩
theorem storeRegs (x : Nibble) : Statement (.storeRegs x) := ⟨_, rfl, rfl, xff_matches _ _ _⟩
theorem loadRegs (x : Nibble) : Statement (.loadRegs x) := ⟨_, rfl, rfl, xff_matches _ _ _⟩

end Sys2Proof.Laws.EncodeMatchesRow
end

