-- ==== Sys2Proof/Tests/Slice0.lean ====
section
/-! SUPPORT. The tests: the well-formedness smoke, decoding from the words of 95_test_vectors.md section 2.1, one step for
each instruction from the vectors named (T1 to T10, V-CF, V-AL, V-DP, V-KY, V-IM, V-TM, V-RS), and a witness for the
hypotheses of each obligation that has some. Every expected value is the spec's. -/

namespace Sys2Proof.Tests

open Sys2Proof Sys2Proof.Machine

/-! ### Helpers -/

/-- The state after one step that runs the word op from s, if it answers one. -/
def after (s : State) (op : Nat) : Option State :=
  match step (s.withFetchWord 16 op) with
  | .next t => some t
  | .fault _ => none
  | .refused _ => none

/-- The state after one transaction. -/
def next (a : Transaction) (s : State) : Option State :=
  match transact a s with
  | .next t => some t
  | .fault _ => none
  | .refused _ => none

/-- Reset with some registers set. -/
def withV (rs : List (Nibble × Byte)) : State := rs.foldl (fun s p => s.setV p.1 p.2) State.reset

/-- s with some bytes written, and I at the first of them. -/
def withI (s : State) (a : Nat) (cs : List Byte) : State := (s.writeBytes a cs).setI (BitVec.ofNat 16 a)

/-- What `f` shows of the state after the word. -/
def shows {α : Type} (s : State) (op : Nat) (f : State → α) : Option α := (after s op).map f

/-! ### WellFormed (R84) -/

theorem test_wf_refuses_sys_of_cls : (Instr.sys 0x0E0#12).wellFormed = false := by decide
theorem test_wf_refuses_sys_of_ret : (Instr.sys 0x0EE#12).wellFormed = false := by decide
theorem test_wf_accepts_neighbours :
    (Instr.sys 0x0E1#12).wellFormed = true ∧ (Instr.sys 0x0EF#12).wellFormed = true ∧
    (Instr.sys 0x000#12).wellFormed = true ∧ (Instr.draw 1#4 2#4 0#4).wellFormed = true := by decide

/-! ### Decode: a word for every constructor (95_test_vectors.md 2.1) -/

theorem test_decode_group0 :
    decode 0x00E0#16 = .known .clearScreen ∧ decode 0x00EE#16 = .known .ret ∧
    decode 0x0000#16 = .known (.sys 0x000#12) ∧ decode 0x00E1#16 = .known (.sys 0x0E1#12) ∧
    decode 0x0123#16 = .known (.sys 0x123#12) := by decide

theorem test_decode_nnn :
    decode 0x1ABC#16 = .known (.jump 0xABC#12) ∧ decode 0x2F00#16 = .known (.call 0xF00#12) ∧
    decode 0xA123#16 = .known (.loadIndex 0x123#12) ∧ decode 0xB0FF#16 = .known (.jumpOffset 0x0FF#12) := by decide

theorem test_decode_xkk :
    decode 0x3A55#16 = .known (.skipEqImm 0xA#4 0x55#8) ∧ decode 0x4B00#16 = .known (.skipNeImm 0xB#4 0x00#8) ∧
    decode 0x6F7E#16 = .known (.loadImmediate 0xF#4 0x7E#8) ∧
    decode 0x7001#16 = .known (.addImmediate 0x0#4 0x01#8) ∧ decode 0xC3F0#16 = .known (.random 0x3#4 0xF0#8) := by
  decide

theorem test_decode_xy :
    decode 0x5120#16 = .known (.skipEqReg 1#4 2#4) ∧ decode 0x5121#16 = .unknown 0x5121#16 ∧
    decode 0x9120#16 = .known (.skipNeReg 1#4 2#4) ∧ decode 0x912F#16 = .unknown 0x912F#16 ∧
    decode 0xD125#16 = .known (.draw 1#4 2#4 5#4) ∧ decode 0xD120#16 = .known (.draw 1#4 2#4 0#4) := by decide

theorem test_decode_group8 :
    decode 0x8120#16 = .known (.loadReg 1#4 2#4) ∧ decode 0x8121#16 = .known (.orReg 1#4 2#4) ∧
    decode 0x8122#16 = .known (.andReg 1#4 2#4) ∧ decode 0x8123#16 = .known (.xorReg 1#4 2#4) ∧
    decode 0x8124#16 = .known (.addVxVy 1#4 2#4) ∧ decode 0x8125#16 = .known (.subVxVy 1#4 2#4) ∧
    decode 0x8126#16 = .known (.shiftRight 1#4 2#4) ∧ decode 0x8127#16 = .known (.subNVxVy 1#4 2#4) ∧
    decode 0x812E#16 = .known (.shiftLeft 1#4 2#4) := by decide

theorem test_decode_group8_unknown :
    decode 0x8128#16 = .unknown 0x8128#16 ∧ decode 0x812D#16 = .unknown 0x812D#16 ∧
    decode 0x812F#16 = .unknown 0x812F#16 := by decide

theorem test_decode_groupE :
    decode 0xE39E#16 = .known (.skipKeyPressed 3#4) ∧ decode 0xE3A1#16 = .known (.skipKeyNotPressed 3#4) ∧
    decode 0xE3A0#16 = .unknown 0xE3A0#16 ∧ decode 0xE000#16 = .unknown 0xE000#16 := by decide

theorem test_decode_groupF :
    decode 0xF307#16 = .known (.loadDelay 3#4) ∧ decode 0xF30A#16 = .known (.waitKey 3#4) ∧
    decode 0xF315#16 = .known (.setDelay 3#4) ∧ decode 0xF318#16 = .known (.setSound 3#4) ∧
    decode 0xF31E#16 = .known (.addIndex 3#4) ∧ decode 0xF329#16 = .known (.loadFont 3#4) ∧
    decode 0xF333#16 = .known (.storeBcd 3#4) ∧ decode 0xF355#16 = .known (.storeRegs 3#4) ∧
    decode 0xF365#16 = .known (.loadRegs 3#4) := by decide

theorem test_decode_groupF_unknown :
    decode 0xF300#16 = .unknown 0xF300#16 ∧ decode 0xF000#16 = .unknown 0xF000#16 ∧
    decode 0xF0FF#16 = .unknown 0xF0FF#16 ∧ decode 0xFFFF#16 = .unknown 0xFFFF#16 := by decide

/-- T1, the example: 0x6A9C. -/
theorem test_table_word :
    decodeTableWord 16 0x6A9C = some (.loadImmediate 0xA#4 0x9C#8) ∧ decodeTableWord 16 0x5121 = none := by decide

theorem test_decode_bytes_big_endian :
    decodeBytes [0x6A#8, 0x9C#8, 0x00#8] = .ok (.loadImmediate 0xA#4 0x9C#8, [0x00#8]) := by rfl

theorem test_decode_bytes_truncated :
    decodeBytes [] = .error .truncated ∧ decodeBytes [0x6A#8] = .error .truncated := ⟨rfl, rfl⟩

/-- R78: 35 is the tag of Unknown; the fields are driven all the same. -/
theorem test_decoder_signals :
    (decoderSignals 0x8125#16).tag = 15#6 ∧ (decoderSignals 0x5121#16).tag = 35#6 ∧
    (decoderSignals 0x5121#16).unknown = true ∧ (decoderSignals 0x5121#16).kk = 0x21#8 := by decide

/-! ### Control flow (95_test_vectors.md 2.2) -/

/-- V-CF15 -/
theorem test_sys_advances :
    shows State.reset 0x0123 (fun t => (t.pc, t.result, t.v)) = some (0x202#16, .ok, State.reset.v) := by decide
/-- V-CF1 -/
theorem test_jump_may_be_odd : shows State.reset 0x1FFF State.pc = some 0xFFF#16 := by decide
/-- V-CF3 -/
theorem test_call_pushes_wrapped_pc :
    shows { State.reset with pc := 0xFFE#16 } 0x2300 (fun t => (t.stack[0], t.sp, t.pc)) =
      some (0x000#16, 1#8, 0x300#16) := by decide
/-- V-CF4 -/
theorem test_call_overflow :
    shows { State.reset with sp := 16#8 } 0x2300 (fun t => (t.result, t.pc, t.sp, t.stack)) =
      some (.stackOverflow 0x200#16, 0x200#16, 16#8, State.reset.stack) := by decide
/-- V-CF5 -/
theorem test_ret_pops :
    shows { State.reset with pc := 0x212#16, sp := 1#8, stack := State.reset.stack.set 0 0x206#16 } 0x00EE
      (fun t => (t.sp, t.pc, t.stack[0])) = some (0#8, 0x206#16, 0x206#16) := by decide
/-- V-CF6 -/
theorem test_ret_underflow :
    shows State.reset 0x00EE (fun t => (t.result, t.pc, t.sp)) =
      some (.stackUnderflow 0x200#16, 0x200#16, 0#8) := by decide
/-- V-CF7 and V-CF8 -/
theorem test_skip_eq_imm :
    shows (withV [(3#4, 0x55#8)]) 0x3355 State.pc = some 0x204#16 ∧
    shows (withV [(3#4, 0x54#8)]) 0x3355 State.pc = some 0x202#16 := by decide
/-- V-CF10 -/
theorem test_skip_wraps : shows { State.reset with pc := 0xFFC#16 } 0x3000 State.pc = some 0x000#16 := by decide
/-- V-CF9 -/
theorem test_skip_ne_imm : shows (withV [(3#4, 0x54#8)]) 0x4355 State.pc = some 0x204#16 := by decide
/-- V-CF11 -/
theorem test_skip_eq_reg_same : shows (withV [(2#4, 0x9#8)]) 0x5220 State.pc = some 0x204#16 := by decide
/-- V-CF12 -/
theorem test_skip_ne_reg : shows (withV [(1#4, 1#8), (2#4, 2#8)]) 0x9120 State.pc = some 0x204#16 := by decide
/-- V-CF13 and V-CF14 -/
theorem test_jump_offset_wraps :
    shows (withV [(0#4, 0x20#8)]) 0xBFF0 State.pc = some 0x010#16 ∧
    shows (withV [(0#4, 0xFF#8)]) 0xBFFF State.pc = some 0x0FE#16 := by decide
/-- V-CF16 -/
theorem test_unknown_opcode :
    shows { State.reset with pc := 0x202#16 } 0x5121 (fun t => (t.result, t.pc)) =
      some (.unknownOpcode 0x5121#16 0x202#16, 0x204#16) := by decide
/-- T10 -/
theorem test_unknown_opcode_ffff :
    shows State.reset 0xFFFF (fun t => (t.result, resultCode t.result, t.pc)) =
      some (.unknownOpcode 0xFFFF#16 0x200#16, 1, 0x202#16) := by decide

/-! ### Arithmetic and logic (95_test_vectors.md 2.3) -/

/-- T1 -/
theorem test_load_immediate :
    shows State.reset 0x6A9C (fun t => (t.getV 0xA#4, t.getV 0xB#4, t.pc)) = some (0x9C#8, 0#8, 0x202#16) := by decide
/-- V-AL1 -/
theorem test_add_immediate_no_carry :
    shows (withV [(0#4, 0xFF#8)]) 0x7001 (fun t => (t.getV 0#4, t.getV vf)) = some (0#8, 0#8) := by decide
/-- V-AL2 -/
theorem test_add_immediate_to_vf : shows (withV [(vf, 0x77#8)]) 0x7F01 (fun t => t.getV vf) = some 0x78#8 := by decide
/-- V-AL3 -/
theorem test_load_reg : shows (withV [(1#4, 0x0F#8)]) 0x8010 (fun t => t.getV 0#4) = some 0x0F#8 := by decide
/-- V-AL4 -/
theorem test_or :
    shows (withV [(0#4, 0xF0#8), (1#4, 0x0F#8), (vf, 0x77#8)]) 0x8011 (fun t => (t.getV 0#4, t.getV vf)) =
      some (0xFF#8, 0x77#8) := by decide
/-- V-AL5 -/
theorem test_and :
    shows (withV [(0#4, 0xF0#8), (1#4, 0x3C#8), (vf, 0x77#8)]) 0x8012 (fun t => (t.getV 0#4, t.getV vf)) =
      some (0x30#8, 0x77#8) := by decide
/-- V-AL6 -/
theorem test_xor :
    shows (withV [(0#4, 0xF0#8), (1#4, 0x3C#8), (vf, 0x77#8)]) 0x8013 (fun t => (t.getV 0#4, t.getV vf)) =
      some (0xCC#8, 0x77#8) := by decide
/-- V-AL8 -/
theorem test_add_carry :
    shows (withV [(0#4, 0xFF#8), (1#4, 0xFF#8)]) 0x8014 (fun t => (t.getV 0#4, t.getV vf)) =
      some (0xFE#8, 1#8) := by decide
/-- V-AL9 -/
theorem test_add_into_vf_flag_last :
    shows (withV [(vf, 0xFF#8), (1#4, 1#8)]) 0x8F14 (fun t => t.getV vf) = some 1#8 := by decide
/-- V-AL12 and V-AL13 -/
theorem test_sub :
    shows (withV [(0#4, 7#8), (1#4, 7#8)]) 0x8015 (fun t => (t.getV 0#4, t.getV vf)) = some (0#8, 1#8) ∧
    shows (withV [(0#4, 0#8), (1#4, 0xFF#8)]) 0x8015 (fun t => (t.getV 0#4, t.getV vf)) = some (1#8, 0#8) := by decide
/-- V-AL17 -/
theorem test_shr_ignores_vy :
    shows (withV [(0#4, 1#8), (1#4, 0xFF#8)]) 0x8016 (fun t => (t.getV 0#4, t.getV 1#4, t.getV vf)) =
      some (0#8, 0xFF#8, 1#8) := by decide
/-- V-AL18 -/
theorem test_shr_of_vf : shows (withV [(vf, 2#8)]) 0x8F06 (fun t => t.getV vf) = some 0#8 := by decide
/-- V-AL19 and V-AL20 -/
theorem test_subn :
    shows (withV [(0#4, 3#8), (1#4, 5#8)]) 0x8017 (fun t => (t.getV 0#4, t.getV vf)) = some (2#8, 1#8) ∧
    shows (withV [(0#4, 5#8), (1#4, 3#8)]) 0x8017 (fun t => (t.getV 0#4, t.getV vf)) = some (0xFE#8, 0#8) := by decide
/-- V-AL22 -/
theorem test_shl : shows (withV [(0#4, 0x81#8)]) 0x800E (fun t => (t.getV 0#4, t.getV vf)) = some (2#8, 1#8) := by
  decide
/-- V-AL25 -/
theorem test_shl_of_vf : shows (withV [(vf, 0x40#8)]) 0x8FFE (fun t => t.getV vf) = some 0#8 := by decide
/-- V-AL26: STEP with r = 0xA7 on 0xC30F -/
theorem test_random_masks :
    (next (.step 0xA7#8) (State.reset.withFetchWord 16 0xC30F)).map (fun t => t.getV 3#4) = some 0x07#8 := by decide
/-- V-AL27: whatever r is -/
theorem test_random_mask_zero : shows State.reset 0xC300 (fun t => t.getV 3#4) = some 0#8 := by
  simp only [shows, after, Option.map]
  show some (Config.randomByte 0 &&& 0#8) = some 0#8
  simp

/-! ### Display (95_test_vectors.md 2.4) -/

/-- V-DP1 -/
theorem test_cls :
    shows { (withV [(vf, 0x55#8)]) with pix := BitVec.allOnes 2048 } 0x00E0 (fun t => (t.pix, t.getV vf, t.pc)) =
      some (0#2048, 0x55#8, 0x202#16) := by rfl
/-- T6: columns 60 to 63 and 0 to 3 of row 0 -/
theorem test_draw_wraps_columns :
    shows (withI (withV [(0#4, 60#8)]) 0x300 [0xFF#8]) 0xD011 (fun t => (t.pix, t.getV vf)) =
      some (BitVec.ofNat 2048 0xF00000000000000F, 0#8) := by decide +kernel
/-- V-DP7: the sprite's second row comes from address 0x000 (the first font byte) -/
theorem test_draw_address_wraps :
    shows (withI State.reset 0xFFF [0x80#8]) 0xD012 (fun t => (t.pix, t.getV vf)) =
      some (BitVec.ofNat 2048 (1 + 15 * 2 ^ 64), 0#8) := by decide +kernel

/-! ### Keys (95_test_vectors.md 2.5) -/

/-- V-KY1 and V-KY2 -/
theorem test_skip_key :
    shows { (withV [(3#4, 0x1A#8)]) with keys := 0x0400#16 } 0xE39E State.pc = some 0x204#16 ∧
    shows { (withV [(3#4, 0x1A#8)]) with keys := 0x0400#16 } 0xE3A1 State.pc = some 0x202#16 := by decide
/-- V-KY3 -/
theorem test_skip_key_not_pressed : shows (withV [(3#4, 0x0A#8)]) 0xE3A1 State.pc = some 0x204#16 := by decide
/-- V-KY4, its first STEP -/
theorem test_wait_key_begins :
    shows { State.reset with pc := 0x204#16 } 0xF10A (fun t => (t.w, t.pc, t.result)) =
      some (some 1#4, 0x204#16, .ok) := by decide
/-- V-KY5: keys 2 and 5 -/
theorem test_wait_takes_lowest_key :
    (next (.step 0#8) { State.reset with w := some 1#4, keys := 0x0024#16 }).map
      (fun t => (t.getV 1#4, t.w, t.pc, t.prevKeys)) = some (2#8, none, 0x202#16, 0x0024#16) := by decide
/-- V-KY6 -/
theorem test_wait_ignores_held_key :
    (next (.step 0#8) { State.reset with w := some 1#4, keys := 0x0008#16, prevKeys := 0x0008#16 }).map
      (fun t => (t.getV 1#4, t.w, t.pc, t.prevKeys)) = some (0#8, some 1#4, 0x200#16, 0x0008#16) := by decide

/-! ### Index and memory (95_test_vectors.md 2.6) -/

/-- V-IM1 -/
theorem test_load_index : shows State.reset 0xAFFF State.i = some 0x0FFF#16 := by decide
/-- V-IM2 -/
theorem test_add_index_wraps :
    shows ((withV [(0#4, 1#8), (vf, 0x33#8)]).setI 0xFFFF#16) 0xF01E (fun t => (t.i, t.getV vf)) =
      some (0x0000#16, 0x33#8) := by decide
/-- V-IM3 -/
theorem test_add_index_past_fff : shows ((withV [(2#4, 2#8)]).setI 0x0FFF#16) 0xF21E State.i = some 0x1001#16 := by decide
/-- V-IM4 -/
theorem test_load_font : shows (withV [(0#4, 0x1A#8)]) 0xF029 State.i = some 0x0032#16 := by decide
/-- T9 -/
theorem test_bcd :
    shows ((withV [(3#4, 0x9C#8)]).setI 0x300#16) 0xF333
      (fun t => (t.readByte 0x300, t.readByte 0x301, t.readByte 0x302, t.i)) =
      some (1#8, 5#8, 6#8, 0x300#16) := by decide
/-- V-IM8 -/
theorem test_bcd_wraps :
    shows ((withV [(0#4, 123#8)]).setI 0xFFF#16) 0xF033
      (fun t => (t.readByte 0xFFF, t.readByte 0x000, t.readByte 0x001)) = some (1#8, 2#8, 3#8) := by decide
/-- V-IM9 -/
theorem test_store_only_v0 :
    shows ((withV [(0#4, 0xAA#8), (1#4, 0xBB#8)]).setI 0x300#16) 0xF055
      (fun t => (t.readByte 0x300, t.readByte 0x301, t.i)) = some (0xAA#8, 0#8, 0x300#16) := by decide
/-- V-IM11 -/
theorem test_store_wraps :
    shows ((withV [(0#4, 1#8), (1#4, 2#8), (2#4, 3#8)]).setI 0xFFE#16) 0xF255
      (fun t => (t.readByte 0xFFE, t.readByte 0xFFF, t.readByte 0x000)) = some (1#8, 2#8, 3#8) := by decide
/-- V-IM13 -/
theorem test_load_only_v0 :
    shows (withI (withV [(1#4, 0x42#8)]) 0x300 [0x99#8]) 0xF065 (fun t => (t.getV 0#4, t.getV 1#4, t.i)) =
      some (0x99#8, 0x42#8, 0x300#16) := by decide

/-! ### Timers (95_test_vectors.md 2.7) -/

/-- V-TM1 -/
theorem test_load_delay : shows (State.reset.setDt 0x2D#8) 0xF207 (fun t => (t.getV 2#4, t.dt)) = some (0x2D#8, 0x2D#8) := by
  decide
/-- V-TM2 -/
theorem test_set_delay : shows (withV [(0#4, 0x3C#8)]) 0xF015 (fun t => (t.dt, t.st)) = some (60#8, 0#8) := by decide
/-- V-TM3 -/
theorem test_set_sound : shows (withV [(3#4, 5#8)]) 0xF318 (fun t => (t.st, t.sound, t.dt)) = some (5#8, true, 0#8) := by
  decide
/-- V-TM6 -/
theorem test_tick_floors :
    (next (.tick 5#32) ((State.reset.setDt 3#8).setSt 200#8)).map (fun t => (t.dt, t.st)) = some (0#8, 195#8) := by decide
/-- V-TM8 -/
theorem test_tick_large :
    (next (.tick 4294967295#32) ((State.reset.setDt 255#8).setSt 255#8)).map (fun t => (t.dt, t.st, t.sound)) =
      some (0#8, 0#8, false) := by decide

/-! ### Reset, LOAD, the interface (95_test_vectors.md 2.8) -/

/-- V-RS1 -/
theorem test_reset :
    State.reset.pc = 0x200#16 ∧ State.reset.readByte 0x000 = 0xF0#8 ∧ State.reset.readByte 0x04F = 0x80#8 ∧
    State.reset.readByte 0x050 = 0#8 ∧ State.reset.sound = false ∧ State.reset.waitValid = false := by decide
/-- A LOAD of two bytes puts them at 0x200 and 0x201 (R236). -/
theorem test_load :
    (next (.load [0x12#8, 0x34#8]) State.reset).map (fun t => (t.fetchWord, t.pc, t.phase)) =
      some (0x1234#16, 0x200#16, .started) := by decide
/-- V-RS3 -/
theorem test_load_too_large : loadTransaction (List.replicate 3585 0xAA#8) State.reset = .fault .romTooLarge := by
  have h : ¬ (List.replicate 3585 0xAA#8).length ≤ Config.maxRom := by rw [List.length_replicate]; decide
  simp only [loadTransaction, State.reset, if_neg h]
/-- V-RS4, its last STEP: the word at 0x000 is F0 90, which is Unknown. -/
theorem test_font_is_not_code :
    (next (.step 0#8) { State.reset with pc := 0x000#16 }).map (fun t => (t.result, t.pc)) =
      some (.unknownOpcode 0xF090#16 0x000#16, 0x002#16) := by decide

/-! ### Witnesses: states and operands that meet the hypotheses of the obligations -/

/-- Two valid frames, a program word at 0x200 and no wait. -/
def running : State :=
  { (State.reset.writeBytes 0x200 [0x23#8, 0x00#8]) with
    sp := 2#8, stack := (State.reset.stack.set 0 0x206#16).set 1 0x306#16, phase := .started }

/-- Parked on an Fx0A of V1, with keys 2 and 5 newly pressed. -/
def waiting : State :=
  { (State.reset.writeBytes 0x200 [0xF1#8, 0x0A#8]) with w := some 1#4, keys := 0x0024#16, phase := .started }

/-- Reset under a host that loads two bytes, steps, ticks and presses key 3. -/
def scheduled : State := { State.reset with schedule := [.load [0x12#8, 0x00#8], .step 7#8, .tick 3#32, .keys 8#16] }

theorem test_running_inv : Inv running where
  pcInRange := by decide
  spInRange := by decide
  framesInRange := by decide
  memCanonical := by decide
  waitIsParked := fun _ h => by cases h
  waitIsStarted := fun _ => rfl

theorem test_waiting_inv : Inv waiting where
  pcInRange := by decide
  spInRange := by decide
  framesInRange := by decide
  memCanonical := by decide
  waitIsParked := fun x h => by cases h; decide
  waitIsStarted := fun _ => rfl

theorem test_scheduled_safe : Safe scheduled where
  inv :=
    { pcInRange := by decide, spInRange := by decide, framesInRange := by decide, memCanonical := by decide,
      waitIsParked := fun _ h => by cases h
      waitIsStarted := fun h => absurd rfl h }
  duty := by decide

/-- SafeStepsNeverStop and SafeRunsNeverStop, in a key wait. -/
theorem test_waiting_safe : Safe waiting := ⟨test_waiting_inv, by decide⟩

/-- DecodeOfEncodeIsTheInstruction, EncodeOfDecodeIsTheWord and DecoderAgreesWithOpcodeMap, first and last row. -/
theorem test_witness_encoding :
    (Instr.sys 0xFFF#12).wellFormed = true ∧ decode 0xF365#16 = .known (.loadRegs 3#4) ∧
    (⟨0, 0x0000#16, 0xF000#16, [0x00E0#16, 0x00EE#16]⟩ : OpcodeRow) ∈ opcodeTable ∧
    (⟨34, 0xF065#16, 0xF0FF#16, []⟩ : OpcodeRow) ∈ opcodeTable := by decide

/-- StepRunsTheDecodedInstruction, both parts: an empty schedule, a STEP and no wait, a known word. -/
theorem test_witness_step :
    running.schedule = [] ∧ running.w = none ∧ decode running.fetchWord = .known (.call 0x300#12) ∧
    (nextTransaction { running with schedule := [.step 7#8] }).1 = .step 7#8 := by decide

theorem test_witness_step_exec :
    ∃ t, exec (.call 0x300#12) { running with r := 7#8, result := .ok, phase := .started } = .next t := ⟨_, rfl⟩

/-- The fault clause: only an sp that no run reaches. -/
theorem test_witness_step_fault :
    exec (.call 0x300#12) { running with sp := 17#8 } = .fault .stackPointerOutOfRange := by rfl

/-- UnknownOpcodeIsReportedAndSkipped. -/
theorem test_witness_unknown :
    decode (State.reset.withFetchWord 16 0x5121).fetchWord = .unknown 0x5121#16 ∧
    (State.reset.withFetchWord 16 0x5121).w = none := by decide

/-- WaitingStepChecksForANewKey: no new key; the lowest of two; keys 0 and 15. -/
theorem test_witness_wait :
    waiting.w = some 1#4 ∧
    (∀ k : Nibble, (0x0008#16).getLsbD k.toNat = true → (0x0008#16).getLsbD k.toNat = true) ∧
    waiting.keys.getLsbD (2#4).toNat = true ∧ waiting.prevKeys.getLsbD (2#4).toNat = false ∧
    (∀ j : Nibble, j < 2#4 → waiting.keys.getLsbD j.toNat = true → waiting.prevKeys.getLsbD j.toNat = true) ∧
    (0x8001#16).getLsbD (0#4).toNat = true ∧ (0x8000#16).getLsbD (15#4).toNat = true ∧
    (∀ j : Nibble, j < 15#4 → (0x8000#16).getLsbD j.toNat = true → (0x0000#16).getLsbD j.toNat = true) := by decide

/-- The wait for key 0 and for key 15, and with every key held. -/
theorem test_wait_boundary_keys :
    (next (.step 0#8) { waiting with keys := 0x8001#16 }).map (fun t => t.getV 1#4) = some 0#8 ∧
    (next (.step 0#8) { waiting with keys := 0x8000#16 }).map (fun t => t.getV 1#4) = some 15#8 ∧
    (next (.step 0#8) { waiting with keys := 0xFFFF#16, prevKeys := 0xFFFF#16 }).map State.w = some (some 1#4) := by
  decide

/-- SysOnlyAdvances, on both sides of the excluded fields. -/
theorem test_witness_sys :
    (0x0E1#12 : Addr) ≠ 0x0E0#12 ∧ (0x0E1#12 : Addr) ≠ 0x0EE#12 ∧ (0x0EF#12 : Addr) ≠ 0x0EE#12 := by decide

/-- CallPushesOrOverflows and ReturnPopsOrUnderflows: sp at 0, 1, 15 and 16. -/
theorem test_witness_stack :
    State.reset.sp.toNat < 16 ∧ ({ State.reset with sp := 15#8 } : State).sp.toNat < 16 ∧
    ({ State.reset with sp := 16#8 } : State).sp.toNat = 16 ∧
    (0 < ({ State.reset with sp := 1#8 } : State).sp.toNat ∧ ({ State.reset with sp := 16#8 } : State).sp.toNat ≤ 16) ∧
    State.reset.sp.toNat = 0 := by decide

/-- The last entry of the stack, pushed and popped. -/
theorem test_stack_boundary :
    shows { State.reset with sp := 15#8 } 0x2300 (fun t => (t.stack[15], t.sp)) = some (0x202#16, 16#8) ∧
    shows { State.reset with sp := 16#8, stack := State.reset.stack.set 15 0x456#16 } 0x00EE
      (fun t => (t.pc, t.sp)) = some (0x456#16, 15#8) := by decide

/-- ReturnsUndoCallsInReverseOrder: fourteen more calls fit on `running`, and none. -/
theorem test_witness_calls :
    running.sp.toNat + (List.replicate 14 (0x300#12 : Addr)).length ≤ 16 ∧
    running.sp.toNat + ([] : List Addr).length ≤ 16 := by decide

/-- StackErrorsRepeat: a CALL on a full stack, a RET on an empty one. -/
theorem test_witness_stack_errors :
    running.phase = .started ∧ ({ running with sp := 16#8 } : State).w = none ∧
    decode ({ running with sp := 16#8 } : State).fetchWord = .known (.call 0x300#12) ∧
    decode (State.reset.withFetchWord 16 0x00EE).fetchWord = .known .ret ∧
    (State.reset.withFetchWord 16 0x00EE).sp.toNat = 0 := by decide

theorem test_witness_stack_errors_step :
    (∃ t, step { running with sp := 16#8 } = .next t) ∧
    (∃ t, step { (State.reset.withFetchWord 16 0x00EE) with phase := .started } = .next t) ∧
    ∃ t, step { running with sp := 16#8, schedule := [.tick 3#32] } = .next t := ⟨⟨_, rfl⟩, ⟨_, rfl⟩, ⟨_, rfl⟩⟩

/-- The ALU statements: a destination that is not VF; and RandomMasksTheStepsByte. -/
theorem test_witness_alu :
    (0xE#4 : Nibble) ≠ vf ∧ (State.reset.withFetchWord 16 0xC30F).w = none ∧
    decode (State.reset.withFetchWord 16 0xC30F).fetchWord = .known (.random 3#4 0x0F#8) := by decide

/-- DrawInvertsCoveredPixels: the corner pixel is covered, its left neighbour is not, and the corner was set. -/
theorem test_witness_draw :
    spriteCovers (withI State.reset 0x300 [0x80#8]) 63 31 1 63 31 ∧
    ¬ spriteCovers (withI State.reset 0x300 [0x80#8]) 63 31 1 62 31 ∧
    ({ State.reset with pix := BitVec.allOnes 2048 } : State).pixel 63 31 = true :=
  ⟨⟨0, 0, by decide, by decide, by decide, by decide, by decide⟩, fun ⟨_, _, _, hc, _, hx, _⟩ => (by omega),
    by simp [State.pixel, pixelOf, pixelIndex]⟩

/-- DrawingTwiceRestoresTheScreen: glyph 0 on an empty screen, and the state t after it as the second start. -/
theorem test_witness_draw_twice :
    (∃ t : State, exec (.draw 0#4 1#4 5#4) State.reset = .next t ∧ t.i = State.reset.i ∧
      (∀ a, t.readByte a = State.reset.readByte a) ∧ t.getV 0#4 = State.reset.getV 0#4 ∧
      t.getV 1#4 = State.reset.getV 1#4) ∧
    (∀ px py, State.reset.pixel px py = false) ∧ spriteCovers State.reset 0 0 5 0 0 :=
  ⟨⟨_, rfl, by simp, fun a => by simp, by simp [State.getV_setV, vf], by simp [State.getV_setV, vf]⟩, fun px py => by simp [State.pixel, pixelOf, State.reset],
    ⟨0, 0, by decide, by decide, by decide, by decide, by decide⟩⟩

/-- WaitKeyParksThePc. -/
theorem test_witness_wait_begins :
    (State.reset.withFetchWord 16 0xF10A).w = none ∧
    decode (State.reset.withFetchWord 16 0xF10A).fetchWord = .known (.waitKey 1#4) := by decide

/-- KeysAreWrittenByKeysAndReadBySkips, its three clauses. -/
theorem test_witness_keys :
    (∃ t, step { running with schedule := [.keys 8#16] } = .next t) ∧
    (∀ x, Instr.loadImmediate 3#4 5#8 ≠ .skipKeyPressed x) ∧ (∀ x, Instr.loadImmediate 3#4 5#8 ≠ .skipKeyNotPressed x) ∧
    ({ running with schedule := [.keys 8#16] } : State).schedule = .keys 8#16 :: [] :=
  ⟨⟨_, rfl⟩, fun _ h => (by cases h), fun _ h => (by cases h), rfl⟩

/-- StoreBcd, StoreRegs and LoadRegsUndoesStoreRegs: a memory in canonical form; the last register and the first
register that is left alone. -/
theorem test_witness_memory : running.mem.wf ∧ (15#4 : Nibble) ≤ 15#4 ∧ (0#4 : Nibble) < 1#4 := by decide

/-- The wf check refuses a byte equal to its reset contents, addresses out of order, and address 4096. -/
theorem test_wf_refuses :
    ¬ Memory.wf [(0x000, 0xF0#8)] ∧ ¬ Memory.wf [(0x301, 1#8), (0x300, 1#8)] ∧ ¬ Memory.wf [(4096, 1#8)] := by decide

/-- FetchSeesTheStoreBeforeIt. -/
theorem test_witness_self_modifying :
    (State.reset.setI 0x202#16).mem.wf ∧ (1#4 : Nibble) ≤ 1#4 ∧
    (State.reset.setI 0x202#16).indexAddr 0 = ((State.reset.setI 0x202#16).pc.toNat + 2) % 4096 := by decide

/-- CanonicalMemoryIsUnique: two writes in either order. -/
theorem test_witness_canonical :
    Memory.wf (Memory.write (Memory.write [] 5 1#8) 0x300 2#8) ∧
    Memory.wf (Memory.write (Memory.write [] 0x300 2#8) 5 1#8) ∧
    Memory.write (Memory.write [] 5 1#8) 0x300 2#8 = Memory.write (Memory.write [] 0x300 2#8) 5 1#8 := by decide

/-- TickCountsBothTimersDown, TicksAddUp (the largest sum) and TickCommutesWithOtherInstructions. -/
theorem test_witness_tick :
    ({ running with schedule := [.tick 3#32] } : State).schedule = .tick 3#32 :: [] ∧
    (4294967294#32).toNat + (1#32).toNat < 2 ^ 32 ∧
    (∀ x, Instr.call 0x300#12 ≠ .loadDelay x) ∧ (∀ x, Instr.call 0x300#12 ≠ .setDelay x) ∧
    (∀ x, Instr.call 0x300#12 ≠ .setSound x) ∧ ∃ t, exec (.call 0x300#12) running = .next t :=
  ⟨rfl, by decide, fun _ h => (by cases h), fun _ h => (by cases h), fun _ h => (by cases h), ⟨_, rfl⟩⟩

/-- LoadCopiesTheImageOnce: its three clauses, at 3584 and 3585 bytes. -/
theorem test_witness_load :
    ({ State.reset with schedule := [.load []] } : State).schedule = .load [] :: [] ∧
    State.reset.phase = .awaitingLoad ∧ State.reset.mem.wf ∧ (List.replicate 3584 (0#8 : Byte)).length ≤ 3584 ∧
    3584 < (List.replicate 3585 (0#8 : Byte)).length ∧ running.phase = .started :=
  ⟨rfl, rfl, by decide, by rw [List.length_replicate], by rw [List.length_replicate]; decide, rfl⟩

/-- EveryStepKeepsTheInvariant: a step from a running state, from a wait and of a LOAD. -/
theorem test_witness_invariant :
    (Inv running ∧ ∃ t, step running = .next t) ∧ (Inv waiting ∧ ∃ t, step waiting = .next t) ∧
    (Inv scheduled ∧ ∃ t, step scheduled = .next t) :=
  ⟨⟨test_running_inv, ⟨_, rfl⟩⟩, ⟨test_waiting_inv, ⟨_, rfl⟩⟩, ⟨test_scheduled_safe.inv, ⟨_, rfl⟩⟩⟩

/-- RegisterWritesFollowTheMatrix and EachPartHasItsWriters: an instruction that completes and a register that it may
not write; and each writer does write. -/
theorem test_witness_writers :
    (∃ t, exec (.loadImmediate 3#4 5#8) running = .next t) ∧ ¬ mayWriteV (.loadImmediate 3#4 5#8) 4#4 ∧
    shows State.reset 0xA123 State.i = some 0x123#16 ∧ shows State.reset 0xF029 State.i = some 0#16 :=
  ⟨⟨_, rfl⟩, by simp [mayWriteV], by decide, by decide⟩

/-- OnlyControlTransfersLeaveTheSequence. -/
theorem test_witness_sequence :
    ∃ t, exec (.jump 0x300#12) State.reset = .next t ∧ t.pc.toNat ≠ (State.reset.pc.toNat + 2) % 4096 :=
  ⟨_, rfl, by decide⟩

/-- PrevKeysMatterOnlyToAWait and OnlyRandomReadsTheRandomByte. -/
theorem test_witness_noninterference :
    running.w = none ∧ (running.w = none → ∀ x kk, decode running.fetchWord ≠ .known (.random x kk)) ∧
    (waiting.w = none → ∀ x kk, decode waiting.fetchWord ≠ .known (.random x kk)) :=
  ⟨rfl, fun _ x kk h => (by
    have e : decode running.fetchWord = .known (.call 0x300#12) := by decide
    rw [e] at h; cases h), fun h => by cases h⟩

/-- StaleStackEntriesAreUnobservable: entry 5 differs, sp is 2. -/
theorem test_witness_stale_stack :
    running.sp.toNat ≤ 16 ∧
    (∀ j, (h : j < 16) → j < running.sp.toNat → (running.stack.set 5 0x999#16)[j]'h = running.stack[j]'h) ∧
    running.stack.set 5 0x999#16 ≠ running.stack := by decide

end Sys2Proof.Tests
end

section
/-! Reset with a FONT of the integrator's choice (00_scope.md R6, 70_reset_and_hazards.md R232): what a block of written
bytes leaves unchanged, what reset memory holds outside FONT, and the obligation assembled from the two. -/

namespace Sys2Proof.Machine

/-- The frame of `State.writeBytes`: memory is its only written part. -/
theorem State.writeBytes_changesOnly (s : State) (a : Nat) (cs : List Byte) :
    ChangesOnly [.mem] s (s.writeBytes a cs) := by
  rw [State.writeBytes_eq]
  constructor
  case mem => exact fun h => absurd (List.mem_singleton_self _) h
  all_goals intros; rfl

/-- Past FONT reset memory holds 0 (R60). -/
theorem initialByte_of_font_le {a : Nat} (ha : 80 ≤ a) : initialByte a = 0#8 :=
  List.getD_eq_default _ _ ha

/-- Every byte of reset memory is the one R60 names. -/
theorem State.readByte_reset {a : Nat} (ha : a < 4096) : State.reset.readByte a = initialByte a :=
  congrArg initialByte (Nat.mod_eq_of_lt ha)

/-- One spec for memory after reset with a FONT (R6, R232): FONT below 0x050, what plain reset holds above it. -/
theorem State.readByte_resetWith (font : Vector Byte 80) {a : Nat} (ha : a < 4096) :
    (State.resetWith font).readByte a = if h : a < 80 then font[a] else initialByte a := by
  have hlen : font.toList.length = 80 := Vector.length_toList
  rw [State.resetWith, State.readByte_writeBytes State.reset_mem_wf 0 font.toList (by omega) ha]
  by_cases h : a < 80
  · rw [dif_pos h, dif_pos (by omega)]
    exact Vector.getElem_toList (by omega)
  · rw [dif_neg h, dif_neg (by omega), State.readByte_reset ha]

/-- Settles O48: memory by `State.readByte_resetWith`, the canonical form and the frame by the laws of
`State.writeBytes`, from which `State.resetWith` is made. -/
theorem resetTakesAnyFont : Obligations.ResetTakesAnyFont := by
  unfold Obligations.ResetTakesAnyFont
  intro font
  refine ⟨fun a h => ?font, fun a h80 ha => ?zero, ?canonical, ?frame⟩
  case font => rw [State.readByte_resetWith font (by omega), dif_pos h]
  case zero => rw [State.readByte_resetWith font ha, dif_neg (by omega), initialByte_of_font_le h80]
  case canonical => exact State.writeBytes_wf State.reset_mem_wf 0 font.toList
  case frame => exact State.writeBytes_changesOnly State.reset 0 font.toList

end Sys2Proof.Machine
end

section
/-! The frame of every instruction (10_state.md rule R23's "writes" column read over all parts): one rule per state
operation, from which the frame of each meaning is composed. -/

namespace Sys2Proof.Machine

variable {ps : List Part} {s t : State}

/-! ### Frame rules of the operations -/

theorem ChangesOnly.refl (ps : List Part) (s : State) : ChangesOnly ps s s := by
  constructor <;> intros <;> rfl

theorem ChangesOnly.setV (h : ChangesOnly ps s t) (x : Nibble) (c : Byte) (hp : .v ∈ ps := by decide) :
    ChangesOnly ps s (t.setV x c) := { h with v := fun hn => absurd hp hn }

theorem ChangesOnly.setI (h : ChangesOnly ps s t) (a : Word) (hp : .i ∈ ps := by decide) :
    ChangesOnly ps s (t.setI a) :=
  { h with i := fun hn => absurd hp hn }

theorem ChangesOnly.setPc (h : ChangesOnly ps s t) (a : Word) (hp : .pc ∈ ps := by decide) :
    ChangesOnly ps s (t.setPc a) :=
  { h with pc := fun hn => absurd hp hn }

theorem ChangesOnly.setDt (h : ChangesOnly ps s t) (c : Byte) (hp : .dt ∈ ps := by decide) :
    ChangesOnly ps s (t.setDt c) :=
  { h with dt := fun hn => absurd hp hn }

theorem ChangesOnly.setSt (h : ChangesOnly ps s t) (c : Byte) (hp : .st ∈ ps := by decide) :
    ChangesOnly ps s (t.setSt c) :=
  { h with st := fun hn => absurd hp hn }

theorem ChangesOnly.setW (h : ChangesOnly ps s t) (o : Option Nibble) (hp : .w ∈ ps := by decide) :
    ChangesOnly ps s (t.setW o) :=
  { h with w := fun hn => absurd hp hn }

theorem ChangesOnly.setPix (h : ChangesOnly ps s t) (p : BitVec 2048) (hp : .pix ∈ ps := by decide) :
    ChangesOnly ps s (t.setPix p) :=
  { h with pix := fun hn => absurd hp hn }

theorem ChangesOnly.raise (h : ChangesOnly ps s t) (e : StepResult) (hp : .result ∈ ps := by decide) :
    ChangesOnly ps s (t.raise e) := { h with result := fun hn => absurd hp hn }

theorem ChangesOnly.writeByte (h : ChangesOnly ps s t) (a : Nat) (c : Byte) (hp : .mem ∈ ps := by decide) :
    ChangesOnly ps s (t.writeByte a c) := { h with mem := fun hn => absurd hp hn }

theorem ChangesOnly.setSp (h : ChangesOnly ps s t) (c : Byte) (hp : .sp ∈ ps := by decide) :
    ChangesOnly ps s { t with sp := c } := { h with sp := fun hn => absurd hp hn }

theorem ChangesOnly.setStackSp (h : ChangesOnly ps s t) (f : Vector Word 16) (c : Byte)
    (hp : .stack ∈ ps := by decide) (hq : .sp ∈ ps := by decide) :
    ChangesOnly ps s { t with stack := f, sp := c } :=
  { h with stack := fun hn => absurd hp hn, sp := fun hn => absurd hq hn }

theorem ChangesOnly.advance (h : ChangesOnly ps s t) (hp : .pc ∈ ps := by decide) :
    ChangesOnly ps s t.advance := h.setPc _ hp

theorem ChangesOnly.skipIf (h : ChangesOnly ps s t) (c : Bool) (hp : .pc ∈ ps := by decide) :
    ChangesOnly ps s (t.skipIf c) := by
  rw [State.skipIf_eq]; exact h.setPc _ hp

theorem ChangesOnly.setResultFlag (h : ChangesOnly ps s t) (x : Nibble) (c : Byte) (f : Bool)
    (hp : .v ∈ ps := by decide) : ChangesOnly ps s (t.setResultFlag x c f) :=
  (h.setV x c hp).setV vf _ hp

theorem ChangesOnly.storeUpTo (h : ChangesOnly ps s t) (n : Nat) (hp : .mem ∈ ps := by decide) :
    ChangesOnly ps s (State.storeUpTo n t) := by
  induction n with
  | zero => exact h
  | succ n ih => exact ih.writeByte _ _ hp

theorem ChangesOnly.loadUpTo (h : ChangesOnly ps s t) (n : Nat) (hp : .v ∈ ps := by decide) :
    ChangesOnly ps s (State.loadUpTo n t) := by
  induction n with
  | zero => exact h
  | succ n ih => exact ih.setV _ _ hp

/-! ### The frame of each instruction -/

/-- The parts that an instruction may write (R23 to R34, R50, R202). -/
def writtenParts : Instr → List Part
  | .sys _ | .jump _ | .jumpOffset _ | .skipEqImm _ _ | .skipNeImm _ _ | .skipEqReg _ _ | .skipNeReg _ _
  | .skipKeyPressed _ | .skipKeyNotPressed _ => [.pc]
  | .call _ => [.stack, .sp, .pc, .result]
  | .ret => [.sp, .pc, .result]
  | .loadImmediate _ _ | .addImmediate _ _ | .loadReg _ _ | .orReg _ _ | .andReg _ _ | .xorReg _ _ | .addVxVy _ _
  | .subVxVy _ _ | .shiftRight _ _ | .subNVxVy _ _ | .shiftLeft _ _ | .random _ _ | .loadDelay _
  | .loadRegs _ => [.v, .pc]
  | .clearScreen => [.pix, .pc]
  | .draw _ _ _ => [.v, .pix, .pc]
  | .loadIndex _ | .addIndex _ | .loadFont _ => [.i, .pc]
  | .setDelay _ => [.dt, .pc]
  | .setSound _ => [.st, .pc]
  | .storeBcd _ | .storeRegs _ => [.mem, .pc]
  | .waitKey _ => [.w]

theorem execCall_changesOnly {nnn : Addr} (h : execCall nnn s = .next t) :
    ChangesOnly [.stack, .sp, .pc, .result] s t := by
  rcases execCall_cases h with ⟨hs, rfl⟩ | ⟨_, rfl⟩
  · exact ((ChangesOnly.refl _ s).setStackSp _ _).setPc _
  · exact (ChangesOnly.refl _ s).raise _

theorem execRet_changesOnly (h : execRet s = .next t) : ChangesOnly [.sp, .pc, .result] s t := by
  rcases execRet_cases h with ⟨_, _, _, rfl⟩ | ⟨_, rfl⟩
  · exact ((ChangesOnly.refl _ s).setSp _).setPc _
  · exact (ChangesOnly.refl _ s).raise _

/-- An instruction that completes changes only its written parts: the rules of its operations, composed. -/
theorem exec_changesOnly {i : Instr} (h : exec i s = .next t) : ChangesOnly (writtenParts i) s t := by
  cases i
  case call nnn => exact execCall_changesOnly h
  case ret => exact execRet_changesOnly h
  all_goals
    cases h
    dsimp only [writtenParts]
    have base := fun ps => ChangesOnly.refl ps s
  case sys => exact (base _).advance
  case clearScreen => exact ((base _).setPix _).advance
  case jump | jumpOffset => exact (base _).setPc _
  case skipEqImm | skipNeImm | skipEqReg | skipNeReg | skipKeyPressed | skipKeyNotPressed =>
    exact (base _).skipIf _
  case loadImmediate | addImmediate | loadReg | orReg | andReg | xorReg | random | loadDelay =>
    exact ((base _).setV _ _).advance
  case addVxVy | subVxVy | shiftRight | subNVxVy | shiftLeft =>
    exact ((base _).setResultFlag _ _ _).advance
  case loadIndex | addIndex | loadFont => exact ((base _).setI _).advance
  case draw => exact (((base _).setPix _).setV _ _).advance
  case waitKey => exact (base _).setW _
  case setDelay => exact ((base _).setDt _).advance
  case setSound => exact ((base _).setSt _).advance
  case storeBcd => exact ((((base _).writeByte _ _).writeByte _ _).writeByte _ _).advance
  case storeRegs => exact ((base _).storeUpTo _).advance
  case loadRegs => exact ((base _).loadUpTo _).advance

end Sys2Proof.Machine
end

section
/-! Which parts and which registers an instruction may write (10_state.md rules R23 to R34): the statements about the
writers of each part, read off the frame `exec_changesOnly`. -/

namespace Sys2Proof.Machine

variable {i : Instr} {s t : State} {k : Nibble}

/-! ### The instructions that list a part -/

theorem eq_of_i_mem_writtenParts (h : .i ∈ writtenParts i) :
    (∃ nnn, i = .loadIndex nnn) ∨ (∃ x, i = .addIndex x) ∨ ∃ x, i = .loadFont x := by
  cases i <;> simp [writtenParts] at h ⊢

theorem eq_of_dt_mem_writtenParts (h : .dt ∈ writtenParts i) : ∃ x, i = .setDelay x := by
  cases i <;> simp [writtenParts] at h ⊢

theorem eq_of_st_mem_writtenParts (h : .st ∈ writtenParts i) : ∃ x, i = .setSound x := by
  cases i <;> simp [writtenParts] at h ⊢

theorem eq_of_w_mem_writtenParts (h : .w ∈ writtenParts i) : ∃ x, i = .waitKey x := by
  cases i <;> simp [writtenParts] at h ⊢

theorem eq_of_pix_mem_writtenParts (h : .pix ∈ writtenParts i) : i = .clearScreen ∨ ∃ x y n, i = .draw x y n := by
  cases i <;> simp [writtenParts] at h ⊢

theorem eq_of_mem_mem_writtenParts (h : .mem ∈ writtenParts i) :
    (∃ x, i = .storeBcd x) ∨ ∃ x, i = .storeRegs x := by
  cases i <;> simp [writtenParts] at h ⊢

theorem eq_of_stack_mem_writtenParts (h : .stack ∈ writtenParts i) : ∃ nnn, i = .call nnn := by
  cases i <;> simp [writtenParts] at h ⊢

theorem eq_of_sp_mem_writtenParts (h : .sp ∈ writtenParts i) : i = .ret ∨ ∃ nnn, i = .call nnn := by
  cases i <;> simp [writtenParts] at h ⊢

theorem eq_of_result_mem_writtenParts (h : .result ∈ writtenParts i) : i = .ret ∨ ∃ nnn, i = .call nnn := by
  cases i <;> simp [writtenParts] at h ⊢

/-- What the host and the STEP around the instruction write, no instruction lists. -/
theorem not_mem_writtenParts_of_interface :
    ∀ p ∈ [Part.keys, .prevKeys, .r, .draws, .phase, .schedule], p ∉ writtenParts i := by
  cases i <;> simp [writtenParts]

/-- Settles O55: a part that changed is one that i lists, by its frame. -/
theorem eachPartHasItsWriters : Obligations.EachPartHasItsWriters := by
  unfold Obligations.EachPartHasItsWriters
  intro i s t h
  have frame := exec_changesOnly h
  have unwritten := not_mem_writtenParts_of_interface (i := i)
  refine ⟨fun hne => eq_of_i_mem_writtenParts (by_contra fun hp => hne (frame.i hp)),
    fun hne => eq_of_dt_mem_writtenParts (by_contra fun hp => hne (frame.dt hp)),
    fun hne => eq_of_st_mem_writtenParts (by_contra fun hp => hne (frame.st hp)),
    fun hne => eq_of_w_mem_writtenParts (by_contra fun hp => hne (frame.w hp)),
    fun hne => eq_of_pix_mem_writtenParts (by_contra fun hp => hne (frame.pix hp)),
    fun ⟨a, hne⟩ => eq_of_mem_mem_writtenParts (by_contra fun hp => hne (frame.mem hp a)),
    fun hne => eq_of_stack_mem_writtenParts (by_contra fun hp => hne (frame.stack hp)),
    fun hne => eq_of_sp_mem_writtenParts (by_contra fun hp => hne (frame.sp hp)),
    fun hne => eq_of_result_mem_writtenParts (by_contra fun hp => hne (frame.result hp)),
    frame.keys (unwritten _ ?_), frame.prevKeys (unwritten _ ?_), frame.r (unwritten _ ?_),
    frame.draws (unwritten _ ?_), frame.phase (unwritten _ ?_), frame.schedule (unwritten _ ?_)⟩ <;> decide

/-! ### Registers -/

theorem State.getV_setV_of_ne {x : Nibble} (hk : k ≠ x) (c : Byte) : (s.setV x c).getV k = s.getV k := by
  rw [State.getV_setV, if_neg hk]

theorem State.getV_setResultFlag_of_ne {x : Nibble} (hk : ¬(k = x ∨ k = vf)) (c : Byte) (f : Bool) :
    (s.setResultFlag x c f).getV k = s.getV k := by
  rw [State.getV_setResultFlag, if_neg fun h => hk (.inr h), if_neg fun h => hk (.inl h)]

/-- Settles O54: an instruction that lists no V by its frame, the others by what their register operation leaves. -/
theorem registerWritesFollowTheMatrix : Obligations.RegisterWritesFollowTheMatrix := by
  unfold Obligations.RegisterWritesFollowTheMatrix
  intro i s t k h hk
  have frame := exec_changesOnly h
  cases i
  case loadImmediate | addImmediate | loadReg | orReg | andReg | xorReg | random | loadDelay =>
    cases h; exact State.getV_setV_of_ne hk _
  case addVxVy | subVxVy | shiftRight | subNVxVy | shiftLeft =>
    cases h; exact State.getV_setResultFlag_of_ne hk _ _
  case draw => cases h; exact State.getV_setV_of_ne hk _
  case loadRegs x =>
    cases h
    have hx : ¬ k.toNat < x.toNat + 1 := fun hlt => hk (Nat.le_of_lt_succ hlt)
    exact (State.getV_loadUpTo s (by omega) k).trans (if_neg hx)
  all_goals exact frame.v (by simp [writtenParts]) k

/-! ### pc -/

/-- The addresses other than p + 2 that an instruction may leave in pc: the table of R25, with the errors of RET and
CALL, which keep pc (R101, R103). -/
def mayGoTo (s : State) : Instr → Word → Prop
  | .ret, p => p = s.pc ∨ ∃ j, ∃ h : j < 16, j < s.sp.toNat ∧ p = s.stack[j]
  | .jump nnn, p => p = zextAddr nnn
  | .call nnn, p => p = s.pc ∨ p = zextAddr nnn
  | .jumpOffset nnn, p => p = offsetTarget nnn (s.getV 0#4)
  | .skipEqImm _ _, p | .skipNeImm _ _, p | .skipEqReg _ _, p | .skipNeReg _ _, p | .skipKeyPressed _, p
  | .skipKeyNotPressed _, p => p = pcAdd s.pc 4
  | .waitKey _, p => p = s.pc
  | _, _ => False

theorem State.skipIf_pc (s : State) (c : Bool) :
    (s.skipIf c).pc = pcAdd s.pc 2 ∨ (s.skipIf c).pc = pcAdd s.pc 4 := by
  cases c
  · exact .inl rfl
  · exact .inr rfl

/-- Where an instruction that completes leaves pc (R25). -/
theorem exec_pc (h : exec i s = .next t) : t.pc = pcAdd s.pc 2 ∨ mayGoTo s i t.pc := by
  cases i
  case ret =>
    refine .inr ?_
    rcases execRet_cases h with ⟨hs, h0, _, rfl⟩ | ⟨_, rfl⟩
    · exact .inr ⟨_, hs, by omega, rfl⟩
    · exact .inl rfl
  case call =>
    refine .inr ?_
    rcases execCall_cases h with ⟨_, rfl⟩ | ⟨_, rfl⟩
    · exact .inr rfl
    · exact .inl rfl
  all_goals cases h
  case jump | jumpOffset | waitKey => exact .inr rfl
  case skipEqImm | skipNeImm | skipEqReg | skipNeReg | skipKeyPressed | skipKeyNotPressed => exact s.skipIf_pc _
  case storeRegs => exact .inl (by rw [State.storeUpTo_eq]; rfl)
  case loadRegs => exact .inl (by rw [State.loadUpTo_eq]; rfl)
  all_goals exact .inl rfl

/-- Settles O56: what `exec_pc` leaves when pc is not p + 2. -/
theorem onlyControlTransfersLeaveTheSequence : Obligations.OnlyControlTransfersLeaveTheSequence := by
  unfold Obligations.OnlyControlTransfersLeaveTheSequence
  intro i s t h hne
  have hgo : mayGoTo s i t.pc := (exec_pc h).resolve_left fun hp => hne (hp ▸ pcAdd_toNat s.pc 2)
  have hskip : t.pc = pcAdd s.pc 4 → t.pc.toNat = (s.pc.toNat + 4) % 4096 := fun hp => hp ▸ pcAdd_toNat s.pc 4
  cases i
  case ret => simp
  case jump | call | jumpOffset => simp
  case skipEqImm | skipNeImm | skipEqReg | skipNeReg | skipKeyPressed | skipKeyNotPressed =>
    simpa using hskip hgo
  case waitKey => simpa using show t.pc = s.pc from hgo
  all_goals exact hgo.elim

end Sys2Proof.Machine
end

section
/-! CALL and RET run forward (41_control_flow.md rules R101 and R103): an equation for each range of sp. -/

namespace Sys2Proof.Machine

variable {s : State}

theorem execCall_of_lt (hs : s.sp.toNat < 16) (nnn : Addr) :
    execCall nnn s =
      .next (({ s with stack := s.stack.set s.sp.toNat (pcAdd s.pc 2) hs, sp := s.sp + 1#8 } : State).setPc
        (zextAddr nnn)) := by
  have hl : s.spLegal = true := decide_eq_true (Nat.le_of_lt hs)
  rw [execCall, if_pos hl, State.push, dif_pos hs]

theorem execCall_of_full (hs : s.sp.toNat = 16) (nnn : Addr) :
    execCall nnn s = .next (s.raise (.stackOverflow s.pc)) := by
  have hl : s.spLegal = true := decide_eq_true (Nat.le_of_eq hs)
  rw [execCall, if_pos hl, State.push, dif_neg (by simp only [Config.stackDepth]; omega)]

theorem execRet_of_pos (h₀ : 0 < s.sp.toNat) (h₁ : s.sp.toNat ≤ 16) :
    execRet s = .next (({ s with sp := s.sp - 1#8 } : State).setPc (s.stack[s.sp.toNat - 1]'(by omega))) := by
  have hl : s.spLegal = true := decide_eq_true h₁
  rw [execRet, if_pos hl, State.pop, dif_pos ⟨h₀, h₁⟩]

theorem execRet_of_empty (hs : s.sp.toNat = 0) : execRet s = .next (s.raise (.stackUnderflow s.pc)) := by
  have hl : s.spLegal = true := decide_eq_true (by simp only [Config.stackDepth]; omega)
  rw [execRet, if_pos hl, State.pop, dif_neg (by omega)]

theorem execCall_of_gt (hs : 16 < s.sp.toNat) (nnn : Addr) : execCall nnn s = .fault .stackPointerOutOfRange :=
  if_neg fun hl => absurd (of_decide_eq_true hl) (Nat.not_le_of_lt hs)

theorem execRet_of_gt (hs : 16 < s.sp.toNat) : execRet s = .fault .stackPointerOutOfRange :=
  if_neg fun hl => absurd (of_decide_eq_true hl) (Nat.not_le_of_lt hs)

end Sys2Proof.Machine
end

section
/-! What an instruction does not read (10_state.md rules R28, R32, R33, R37, R41, R47): a change of the parts that few
instructions look at commutes with every instruction that does not look at them, and with a STEP that runs none of
those. -/

namespace Sys2Proof.Machine

/-- A change of the parts of the state that only few instructions read or write: the values put there, and a TICK of
both timers. What is none stays as it is. -/
structure SideChange where
  stack : Option (Vector Word 16) := none
  tick : Option (BitVec 32) := none
  keys : Option (BitVec 16) := none
  prevKeys : Option (BitVec 16) := none
  r : Option Byte := none

/-- The state with the change made. -/
def State.withSide (g : SideChange) (s : State) : State :=
  { s with
    stack := g.stack.getD s.stack, dt := g.tick.elim s.dt (countDown s.dt), st := g.tick.elim s.st (countDown s.st),
    keys := g.keys.getD s.keys, prevKeys := g.prevKeys.getD s.prevKeys, r := g.r.getD s.r }

/-- Each part that the instruction reads or writes is one that the change leaves alone. -/
def SideChange.unseenBy (g : SideChange) : Instr → Prop
  | .call _ | .ret => g.stack = none
  | .loadDelay _ | .setDelay _ | .setSound _ => g.tick = none
  | .skipKeyPressed _ | .skipKeyNotPressed _ => g.keys = none
  | .random _ _ => g.r = none
  | _ => True

variable {g : SideChange} {i : Instr}

theorem State.withSide_skipIf (g : SideChange) (s : State) (c : Bool) :
    (s.withSide g).skipIf c = (s.skipIf c).withSide g := by
  rw [State.skipIf_eq, State.skipIf_eq]; rfl

theorem State.withSide_storeUpTo (g : SideChange) (s : State) (n : Nat) :
    State.storeUpTo n (s.withSide g) = (State.storeUpTo n s).withSide g := by
  induction n with
  | zero => rfl
  | succ n ih => rw [State.storeUpTo, State.storeUpTo, ih]; rfl

theorem State.withSide_loadUpTo (g : SideChange) (s : State) (n : Nat) :
    State.loadUpTo n (s.withSide g) = (State.loadUpTo n s).withSide g := by
  induction n with
  | zero => rfl
  | succ n ih => rw [State.loadUpTo, State.loadUpTo, ih]; rfl

theorem State.withSide_keyOf (hg : g.keys = none) (s : State) (x : Nibble) : (s.withSide g).keyOf x = s.keyOf x :=
  congrArg (fun ks => (ks.getD s.keys).getLsbD (lowNibble (s.getV x)).toNat) hg

theorem execCall_withSide (hg : g.stack = none) (nnn : Addr) (s : State) :
    execCall nnn (s.withSide g) = mapNext (State.withSide g) (execCall nnn s) := by
  obtain ⟨stack, tick, keys, prevKeys, r⟩ := g
  obtain rfl : stack = none := hg
  rcases Nat.lt_trichotomy s.sp.toNat 16 with hs | hs | hs
  · rw [execCall_of_lt hs, execCall_of_lt (s := s.withSide _) hs]; rfl
  · rw [execCall_of_full hs, execCall_of_full (s := s.withSide _) hs]; rfl
  · rw [execCall_of_gt hs, execCall_of_gt (s := s.withSide _) hs]; rfl

theorem execRet_withSide (hg : g.stack = none) (s : State) :
    execRet (s.withSide g) = mapNext (State.withSide g) (execRet s) := by
  obtain ⟨stack, tick, keys, prevKeys, r⟩ := g
  obtain rfl : stack = none := hg
  rcases Nat.eq_zero_or_pos s.sp.toNat with h₀ | h₀
  · rw [execRet_of_empty h₀, execRet_of_empty (s := s.withSide _) h₀]; rfl
  · rcases Nat.lt_or_ge 16 s.sp.toNat with h₁ | h₁
    · rw [execRet_of_gt h₁, execRet_of_gt (s := s.withSide _) h₁]; rfl
    · rw [execRet_of_pos h₀ h₁, execRet_of_pos (s := s.withSide _) h₀ h₁]; rfl

/-- An instruction does the same before and after a change of parts that it neither reads nor writes. -/
theorem exec_withSide (hg : g.unseenBy i) (s : State) :
    exec i (s.withSide g) = mapNext (State.withSide g) (exec i s) := by
  cases i
  case call nnn => exact execCall_withSide hg nnn s
  case ret => exact execRet_withSide hg s
  case skipEqImm | skipNeImm | skipEqReg | skipNeReg => exact congrArg Host.Outcome.next (s.withSide_skipIf g _)
  case storeRegs x =>
    exact congrArg (fun u => Host.Outcome.next (State.advance u)) (s.withSide_storeUpTo g (x.toNat + 1))
  case loadRegs x =>
    exact congrArg (fun u => Host.Outcome.next (State.advance u)) (s.withSide_loadUpTo g (x.toNat + 1))
  case skipKeyPressed x => rw [exec, execSkipKeyPressed, State.withSide_keyOf hg, State.withSide_skipIf]; rfl
  case skipKeyNotPressed x => rw [exec, execSkipKeyNotPressed, State.withSide_keyOf hg, State.withSide_skipIf]; rfl
  case loadDelay | setDelay | setSound | random =>
    obtain ⟨stack, tick, keys, prevKeys, r⟩ := g
    cases hg
    rfl
  all_goals rfl

end Sys2Proof.Machine
end

section
/-! The transactions (10_state.md rule R40, 30_encoding.md rule R80): an equation for each thing a STEP can run, the
changes that a transaction does not look at, and what it leaves unchanged. -/

namespace Sys2Proof.Machine

variable {g : SideChange} {s t : State}

/-! ### The three things a STEP can run -/

theorem stepBody_of_wait {x : Nibble} (hw : s.w = some x) : stepBody s = .next (s.waitCheck x) := by
  rw [stepBody, hw]

theorem stepBody_of_unknown {op : Word} (hw : s.w = none) (hop : decode s.fetchWord = .unknown op) :
    stepBody s = .next (s.unknownWord op) := by
  rw [stepBody, hw]; simp only [hop]

theorem stepBody_of_known {i : Instr} (hw : s.w = none) (hi : decode s.fetchWord = .known i) :
    stepBody s = exec i s := by
  rw [stepBody, hw]; simp only [hi]

/-! ### Changes that a transaction does not look at -/

theorem State.waitCheck_withSide (hk : g.keys = none) (hp : g.prevKeys = none) (s : State) (x : Nibble) :
    (s.withSide g).waitCheck x = (s.waitCheck x).withSide g := by
  obtain ⟨stack, tick, keys, prevKeys, r⟩ := g
  obtain rfl : keys = none := hk
  obtain rfl : prevKeys = none := hp
  have hkeys : lowestKey (s.withSide ⟨stack, tick, none, none, r⟩).newKeys = lowestKey s.newKeys := rfl
  rw [State.waitCheck, State.waitCheck, hkeys]
  cases lowestKey s.newKeys <;> rfl

/-- What a STEP runs does the same before and after a change of parts that it neither reads nor writes. -/
theorem stepBody_withSide (hw : s.w ≠ none → g.keys = none ∧ g.prevKeys = none)
    (hi : ∀ i, s.w = none → decode s.fetchWord = .known i → g.unseenBy i) :
    stepBody (s.withSide g) = mapNext (State.withSide g) (stepBody s) := by
  cases hs : s.w with
  | some x =>
    obtain ⟨hk, hp⟩ := hw (by simp [hs])
    rw [stepBody_of_wait hs, stepBody_of_wait (s := s.withSide g) hs, State.waitCheck_withSide hk hp, mapNext_next]
  | none =>
    cases hd : decode s.fetchWord with
    | unknown op => rw [stepBody_of_unknown hs hd, stepBody_of_unknown (s := s.withSide g) hs hd]; rfl
    | known i =>
      rw [stepBody_of_known hs hd, stepBody_of_known (s := s.withSide g) hs hd, exec_withSide (hi i hs hd)]

theorem State.withSide_writeBytes (g : SideChange) (s : State) (a : Nat) (cs : List Byte) :
    (s.withSide g).writeBytes a cs = (s.writeBytes a cs).withSide g := by
  induction cs generalizing s a with
  | nil => rfl
  | cons c cs ih => exact ih (s.writeByte a c) (a + 1)

theorem loadTransaction_withSide (g : SideChange) (s : State) (image : List Byte) :
    loadTransaction image (s.withSide g) = mapNext (State.withSide g) (loadTransaction image s) := by
  have hphase : (s.withSide g).phase = s.phase := rfl
  rw [loadTransaction, loadTransaction, hphase, State.withSide_writeBytes]
  cases s.phase with
  | started => rfl
  | awaitingLoad => dsimp only; split <;> rfl

theorem nextTransaction_withSide (g : SideChange) (s : State) :
    nextTransaction (s.withSide g) = ((nextTransaction s).1, (nextTransaction s).2.withSide g) := by
  obtain ⟨_, _, _, _, _, _, _, _, _, _, _, _, _, _, _, _, schedule⟩ := s
  cases schedule <;> rfl

/-! ### What the host's transactions leave unchanged -/

theorem State.waitCheck_changesOnly (s : State) (x : Nibble) : ChangesOnly [.v, .w, .pc] s (s.waitCheck x) := by
  rcases s.waitCheck_spec x with ⟨_, h⟩ | ⟨k, _, _, _, h⟩ <;> rw [h]
  · exact .refl _ s
  · exact (((ChangesOnly.refl _ s).setV _ _).setW _).advance

theorem stepTransaction_keys {r : Byte} (h : stepTransaction r s = .next t) : t.keys = s.keys := by
  rcases stepTransaction_cases h with ⟨x, _, rfl⟩ | ⟨op, _, _, rfl⟩ | ⟨i, u, _, _, hu, rfl⟩
  · exact ((s.beginStep r).waitCheck_changesOnly x).keys (by decide)
  · rfl
  · exact (exec_changesOnly hu).keys (not_mem_writtenParts_of_interface _ (by decide))

theorem loadTransaction_changesOnly {image : List Byte} (h : loadTransaction image s = .next t) :
    ChangesOnly [.mem, .phase] s t := by
  obtain ⟨_, _, rfl⟩ := loadTransaction_cases h
  rw [State.writeBytes_eq]
  exact { ChangesOnly.refl [.mem, .phase] s with
    mem := fun hn => absurd (by decide) hn, phase := fun hn => absurd (by decide) hn }

theorem nextTransaction_changesOnly (s : State) : ChangesOnly [.draws, .schedule] s (nextTransaction s).2 := by
  rcases nextTransaction_spec s with ⟨a, rest, _, h⟩ | ⟨_, h⟩ <;> rw [h]
  · exact { ChangesOnly.refl [.draws, .schedule] s with schedule := fun hn => absurd (by decide) hn }
  · exact { ChangesOnly.refl [.draws, .schedule] s with draws := fun hn => absurd (by decide) hn }

end Sys2Proof.Machine
end

section
/-! What cannot be learnt from keys, prev_keys, the random byte and the timers (10_state.md rules R32, R33, R37, R41,
R47): each is `exec_withSide` or `stepBody_withSide` for one change. -/

namespace Sys2Proof.Machine

/-- Settles O32: the writer by the frames of the transactions, the readers by a change of the keys alone, KEYS by
running it. -/
theorem keysAreWrittenByKeysAndReadBySkips : Obligations.KeysAreWrittenByKeysAndReadBySkips := by
  unfold Obligations.KeysAreWrittenByKeysAndReadBySkips
  refine ⟨fun s t h => ?written, fun i s ks hp hn => ?read, fun s k rest hs => ?keys⟩
  case written =>
    have hk : (nextTransaction s).2.keys = s.keys := (nextTransaction_changesOnly s).keys (by decide)
    rw [step] at h
    cases ha : (nextTransaction s).1 with rw [ha] at h
    | step r => exact (stepTransaction_keys h).trans hk
    | tick n => cases h; exact hk
    | keys k => cases h; rfl
    | load image => exact ((loadTransaction_changesOnly h).keys (by decide)).trans hk
  case read =>
    have hunseen : ({ keys := some ks } : SideChange).unseenBy i := by
      cases i
      case skipKeyPressed x => exact absurd rfl (hp x)
      case skipKeyNotPressed x => exact absurd rfl (hn x)
      all_goals trivial
    exact exec_withSide hunseen s
  case keys =>
    have hstep : step s = .next (({ s with schedule := rest } : State).setKeys k) := by
      rw [step, nextTransaction, hs]; rfl
    exact ⟨_, hstep, rfl, { ChangesOnly.refl [.keys, .schedule] s with
      keys := fun hn => absurd (by decide) hn, schedule := fun hn => absurd (by decide) hn }⟩

/-- Settles O46: a TICK is a change that only the timer instructions see. -/
theorem tickCommutesWithOtherInstructions : Obligations.TickCommutesWithOtherInstructions := by
  unfold Obligations.TickCommutesWithOtherInstructions
  intro i s t n hld hsd hss h
  have hunseen : ({ tick := some n } : SideChange).unseenBy i := by
    cases i
    case loadDelay x => exact absurd rfl (hld x)
    case setDelay x => exact absurd rfl (hsd x)
    case setSound x => exact absurd rfl (hss x)
    all_goals trivial
  have hcomm := exec_withSide hunseen s
  rw [h] at hcomm
  exact ⟨_, _, rfl, hcomm, rfl⟩

/-- Settles O57: what the STEP runs keeps prev_keys apart, and its end overwrites them with the keys. -/
theorem prevKeysMatterOnlyToAWait : Obligations.PrevKeysMatterOnlyToAWait := by
  unfold Obligations.PrevKeysMatterOnlyToAWait
  intro s r k hw
  have hbody : stepBody ((s.beginStep r).withSide { prevKeys := some k }) = _ :=
    stepBody_withSide (fun h => absurd hw h) (fun i _ _ => by cases i <;> trivial)
  have hend : stepTransaction r { s with prevKeys := k } = mapNext State.endStep _ :=
    congrArg (mapNext State.endStep) hbody
  rw [hend, stepTransaction]
  cases stepBody (s.beginStep r) <;> rfl

/-- Settles O58: the two latched bytes are a change of r alone. -/
theorem onlyRandomReadsTheRandomByte : Obligations.OnlyRandomReadsTheRandomByte := by
  unfold Obligations.OnlyRandomReadsTheRandomByte
  intro s r r' hno
  have hbody : stepBody ((s.beginStep r).withSide { r := some r' }) = _ :=
    stepBody_withSide (fun _ => ⟨rfl, rfl⟩) fun i hw hi => by
      cases i
      case random x kk => exact absurd hi (hno hw x kk)
      all_goals trivial
  have hend : stepTransaction r' s = mapNext State.endStep _ := congrArg (mapNext State.endStep) hbody
  rw [hend, stepTransaction]
  cases stepBody (s.beginStep r) <;> rfl

end Sys2Proof.Machine
end

section
/-! The invariant of the machine (10_state.md rules R24, R28, R29, R31): reset meets it, and every transaction keeps
it. -/

namespace Sys2Proof.Machine

variable {s t : State} {i : Instr}

/-! ### Reset -/

theorem inv_reset : Inv State.reset where
  pcInRange := by decide
  spInRange := by decide
  framesInRange := fun _ _ hlt => absurd hlt (Nat.not_lt_zero _)
  memCanonical := State.reset_mem_wf
  waitIsParked := fun _ h => by cases h
  waitIsStarted := fun h => absurd rfl h

/-- Settles O50: `inv_reset`, and the empty schedule breaks no duty. -/
theorem resetIsSafe : Obligations.ResetIsSafe := ⟨inv_reset, rfl⟩

/-- Settles O47: memory is what R60 says of reset, the other parts are as `State.reset` lists them. -/
theorem resetStateIsAsListed : Obligations.ResetStateIsAsListed := by
  unfold Obligations.ResetStateIsAsListed
  refine ⟨fun k => ?v, rfl, rfl, fun j h => ?stack, rfl, rfl, rfl, rfl, fun a h => ?font, fun a h80 ha => ?zero,
    rfl, rfl, rfl, rfl⟩
  case v => exact Vector.getElem_replicate k.isLt
  case stack => exact Vector.getElem_replicate h
  case font =>
    have ha : a < 80 := h
    rw [State.readByte_reset (by omega), initialByte, List.getD_eq_getElem]
  case zero => rw [State.readByte_reset ha, initialByte_of_font_le h80]

/-! ### pc -/

theorem pcAdd_lt (p : Word) (k : Nat) : (pcAdd p k).toNat < 4096 := by
  rw [pcAdd_toNat]; exact Nat.mod_lt _ (by decide)

theorem zextAddr_lt (nnn : Addr) : (zextAddr nnn).toNat < 4096 := by
  have := nnn.isLt
  simp only [zextAddr, BitVec.toNat_setWidth]; omega

theorem offsetTarget_lt (nnn : Addr) (c : Byte) : (offsetTarget nnn c).toNat < 4096 := by
  simp only [offsetTarget, Config.memSize, BitVec.toNat_ofNat]; omega

/-- Every place an instruction may go to lies in memory (R24). -/
theorem Inv.mayGoTo_lt (hs : Inv s) {p : Word} (h : mayGoTo s i p) : p.toNat < 4096 := by
  cases i
  case ret =>
    rcases h with rfl | ⟨j, hj, hlt, rfl⟩
    · exact hs.pcInRange
    · exact hs.framesInRange j hj hlt
  case call nnn =>
    rcases h with rfl | rfl
    · exact hs.pcInRange
    · exact zextAddr_lt nnn
  case jump nnn => obtain rfl := h; exact zextAddr_lt nnn
  case jumpOffset nnn => obtain rfl := h; exact offsetTarget_lt nnn _
  case skipEqImm | skipNeImm | skipEqReg | skipNeReg | skipKeyPressed | skipKeyNotPressed =>
    obtain rfl := h; exact pcAdd_lt s.pc 4
  case waitKey => obtain rfl := h; exact hs.pcInRange
  all_goals exact h.elim

theorem Inv.exec_pc_lt (hs : Inv s) (h : exec i s = .next t) : t.pc.toNat < 4096 := by
  rcases exec_pc h with hp | hp
  · rw [hp]; exact pcAdd_lt s.pc 2
  · exact hs.mayGoTo_lt hp

/-! ### The call stack -/

/-- The frames in use, as the invariant wants them (R28, R29). -/
def FramesOk (s : State) : Prop :=
  s.sp.toNat ≤ 16 ∧ ∀ j, (h : j < 16) → j < s.sp.toNat → (s.stack[j]'h).toNat < 4096

theorem execCall_framesOk (hs : FramesOk s) {nnn : Addr} (h : execCall nnn s = .next t) : FramesOk t := by
  obtain ⟨hsp, hframes⟩ := hs
  rcases execCall_cases h with ⟨hlt, rfl⟩ | ⟨_, rfl⟩
  · have hadd : (s.sp + 1#8).toNat = s.sp.toNat + 1 := sp_add_one s.sp hlt
    refine ⟨hadd.trans_le hlt, fun j hj hjs => ?_⟩
    have hjs : j < (s.sp + 1#8).toNat := hjs
    show ((s.stack.set s.sp.toNat (pcAdd s.pc 2) hlt)[j]).toNat < 4096
    rw [Vector.getElem_set]
    split
    · exact pcAdd_lt s.pc 2
    · exact hframes j hj (by omega)
  · exact ⟨hsp, hframes⟩

theorem execRet_framesOk (hs : FramesOk s) (h : execRet s = .next t) : FramesOk t := by
  obtain ⟨hsp, hframes⟩ := hs
  rcases execRet_cases h with ⟨_, hpos, _, rfl⟩ | ⟨_, rfl⟩
  · have hsub : (s.sp - 1#8).toNat = s.sp.toNat - 1 := sp_sub_one s.sp hpos
    refine ⟨hsub.trans_le (by omega), fun j hj hjs => hframes j hj ?_⟩
    have hjs : j < (s.sp - 1#8).toNat := hjs
    omega
  · exact ⟨hsp, hframes⟩

theorem stack_not_mem_writtenParts (h : .sp ∉ writtenParts i) : .stack ∉ writtenParts i := fun hstack => by
  obtain ⟨nnn, rfl⟩ := eq_of_stack_mem_writtenParts hstack
  exact h (by simp [writtenParts])

theorem exec_framesOk (hs : FramesOk s) (h : exec i s = .next t) : FramesOk t := by
  by_cases hsp : .sp ∈ writtenParts i
  · rcases eq_of_sp_mem_writtenParts hsp with rfl | ⟨nnn, rfl⟩
    · exact execRet_framesOk hs h
    · exact execCall_framesOk hs h
  · rw [FramesOk, (exec_changesOnly h).sp hsp, (exec_changesOnly h).stack (stack_not_mem_writtenParts hsp)]
    exact hs

/-! ### Memory -/

theorem exec_mem_wf (hs : s.mem.wf) (h : exec i s = .next t) : t.mem.wf := by
  cases i
  case call => rcases execCall_cases h with ⟨_, rfl⟩ | ⟨_, rfl⟩ <;> exact hs
  case ret => rcases execRet_cases h with ⟨_, _, _, rfl⟩ | ⟨_, rfl⟩ <;> exact hs
  all_goals cases h
  case storeBcd => exact State.writeByte_wf (State.writeByte_wf (State.writeByte_wf hs _ _) _ _) _ _
  case storeRegs => exact State.storeUpTo_wf hs _
  case loadRegs => rw [State.loadUpTo_eq]; exact hs
  case skipEqImm | skipNeImm | skipEqReg | skipNeReg | skipKeyPressed | skipKeyNotPressed =>
    rw [State.skipIf_eq]; exact hs
  all_goals exact hs

/-! ### The key wait -/

/-- Only the Fx0A that stands at pc begins a wait, and it moves neither pc nor memory (R152). -/
theorem exec_waitIsParked (hw : s.w = none) (hi : decode s.fetchWord = .known i) (h : exec i s = .next t) (x : Nibble)
    (hx : t.w = some x) : decode t.fetchWord = .known (.waitKey x) := by
  have hwritten : .w ∈ writtenParts i := by_contra fun hn => by
    rw [(exec_changesOnly h).w hn, hw] at hx; cases hx
  obtain ⟨y, rfl⟩ := eq_of_w_mem_writtenParts hwritten
  cases h
  obtain rfl : y = x := Option.some.inj hx
  exact hi

/-! ### The transactions -/

theorem Inv.exec (hs : Inv s) (hw : s.w = none) (hp : s.phase = .started) (hi : decode s.fetchWord = .known i)
    (h : exec i s = .next t) : Inv t :=
  have hframes := exec_framesOk ⟨hs.spInRange, hs.framesInRange⟩ h
  { pcInRange := hs.exec_pc_lt h
    spInRange := hframes.1
    framesInRange := hframes.2
    memCanonical := exec_mem_wf hs.memCanonical h
    waitIsParked := exec_waitIsParked hw hi h
    waitIsStarted := fun _ =>
      ((exec_changesOnly h).phase (not_mem_writtenParts_of_interface _ (by decide))).trans hp }

/-- The invariant without a wait asks nothing of the word at pc. -/
theorem Inv.advance_of_no_wait (hs : Inv s) (hw : s.w = none) : Inv s.advance :=
  { hs with
    pcInRange := pcAdd_lt s.pc 2
    waitIsParked := fun x hx => by rw [State.advance_w, hw] at hx; cases hx }

theorem Inv.beginStep (hs : Inv s) (r : Byte) : Inv (s.beginStep r) := { hs with waitIsStarted := fun _ => rfl }

theorem Inv.endStep (hs : Inv s) : Inv s.endStep := { hs with }

theorem Inv.setW_none (hs : Inv s) : Inv (s.setW none) :=
  { hs with waitIsParked := fun _ hx => (by cases hx), waitIsStarted := fun h => absurd rfl h }

theorem Inv.waitCheck (hs : Inv s) (x : Nibble) : Inv (s.waitCheck x) := by
  rcases s.waitCheck_spec x with ⟨_, h⟩ | ⟨k, _, _, _, h⟩ <;> rw [h]
  · exact hs
  · have hset : Inv (s.setV x (zextNibble (regIndex k))) := { hs with }
    exact hset.setW_none.advance_of_no_wait rfl

theorem Inv.unknownWord (hs : Inv s) (hw : s.w = none) (op : Word) : Inv (s.unknownWord op) := by
  have hraise : Inv (s.raise (.unknownOpcode op s.pc)) := { hs with }
  exact hraise.advance_of_no_wait hw

theorem Inv.stepTransaction (hs : Inv s) {r : Byte} (h : stepTransaction r s = .next t) : Inv t := by
  rcases stepTransaction_cases h with ⟨x, _, rfl⟩ | ⟨op, hw, _, rfl⟩ | ⟨i, u, hw, hi, hu, rfl⟩
  · exact ((hs.beginStep r).waitCheck x).endStep
  · exact ((hs.beginStep r).unknownWord hw op).endStep
  · exact ((hs.beginStep r).exec hw rfl hi hu).endStep

/-- A LOAD comes before the first STEP, so no wait is under way whose Fx0A it could overwrite (R236). -/
theorem Inv.loadTransaction (hs : Inv s) {image : List Byte} (h : loadTransaction image s = .next t) : Inv t := by
  obtain ⟨hphase, _, rfl⟩ := loadTransaction_cases h
  have hw : s.w = none := by_contra fun hn => by cases hphase.symm.trans (hs.waitIsStarted hn)
  have hwf := State.writeBytes_wf hs.memCanonical 0x200 image
  rw [State.writeBytes_eq]
  exact { hs with
    memCanonical := hwf
    waitIsParked := fun x hx => by cases hw.symm.trans hx
    waitIsStarted := fun _ => rfl }

theorem Inv.transact (hs : Inv s) {a : Transaction} (h : transact a s = .next t) : Inv t := by
  cases a with
  | step r => exact hs.stepTransaction h
  | tick n => cases h; exact { hs with }
  | keys k => cases h; exact { hs with }
  | load image => exact hs.loadTransaction h

theorem Inv.nextTransaction (hs : Inv s) : Inv (nextTransaction s).2 := by
  rcases nextTransaction_spec s with ⟨a, rest, _, h⟩ | ⟨_, h⟩ <;> rw [h] <;> exact { hs with }

/-- Settles O51: taking the transaction off the schedule keeps the invariant, and so does each transaction. -/
theorem everyStepKeepsTheInvariant : Obligations.EveryStepKeepsTheInvariant :=
  fun _ _ hs h => hs.nextTransaction.transact h

end Sys2Proof.Machine
end

section
/-! Stack entries at or above sp (10_state.md rules R28 and R29): CALL overwrites the first of them and RET reads below
them, so states that differ only there step to states that differ only there. -/

namespace Sys2Proof.Machine

variable {s t : State} {stack' : Vector Word 16}

/-- The stack f holds the frames in use of s (R28). -/
def HoldsFramesOf (s : State) (f : Vector Word 16) : Prop :=
  ∀ j, (h : j < 16) → j < s.sp.toNat → f[j]'h = s.stack[j]'h

/-- Another stack, as a change that only CALL and RET look at. -/
def otherStack (f : Vector Word 16) : SideChange := { stack := some f }

theorem HoldsFramesOf.of_frame {ps : List Part} (hf : HoldsFramesOf s stack') (frame : ChangesOnly ps s t)
    (hsp : .sp ∉ ps) (hstack : .stack ∉ ps) : HoldsFramesOf t stack' := by
  rw [HoldsFramesOf, frame.sp hsp, frame.stack hstack]; exact hf

theorem execCall_otherStack (hf : HoldsFramesOf s stack') {nnn : Addr} (h : execCall nnn s = .next t) :
    ∃ f, execCall nnn (s.withSide (otherStack stack')) = .next (t.withSide (otherStack f)) ∧ HoldsFramesOf t f := by
  rcases execCall_cases h with ⟨hlt, rfl⟩ | ⟨hfull, rfl⟩
  · refine ⟨_, execCall_of_lt (s := s.withSide (otherStack stack')) hlt nnn, fun j hj hjs => ?_⟩
    have hjs : j < s.sp.toNat + 1 := (sp_add_one s.sp hlt) ▸ hjs
    show (stack'.set s.sp.toNat (pcAdd s.pc 2) hlt)[j] = (s.stack.set s.sp.toNat (pcAdd s.pc 2) hlt)[j]
    rw [Vector.getElem_set, Vector.getElem_set]
    split
    · rfl
    · exact hf j hj (by omega)
  · exact ⟨stack', execCall_of_full (s := s.withSide (otherStack stack')) hfull nnn, hf⟩

theorem execRet_otherStack (hf : HoldsFramesOf s stack') (h : execRet s = .next t) :
    ∃ f, execRet (s.withSide (otherStack stack')) = .next (t.withSide (otherStack f)) ∧ HoldsFramesOf t f := by
  refine ⟨stack', ?_⟩
  rcases execRet_cases h with ⟨hj, hpos, hle, rfl⟩ | ⟨hempty, rfl⟩
  · have htop : stack'[s.sp.toNat - 1] = s.stack[s.sp.toNat - 1] := hf _ hj (by omega)
    have hsub : (s.sp - 1#8).toNat = s.sp.toNat - 1 := sp_sub_one s.sp hpos
    refine ⟨(execRet_of_pos (s := s.withSide (otherStack stack')) hpos hle).trans ?_, fun j hj hjs => hf j hj ?_⟩
    · rw [← htop]; rfl
    · have hjs : j < (s.sp - 1#8).toNat := hjs
      omega
  · exact ⟨execRet_of_empty (s := s.withSide (otherStack stack')) hempty, hf⟩

theorem exec_otherStack (hf : HoldsFramesOf s stack') {i : Instr} (h : exec i s = .next t) :
    ∃ f, exec i (s.withSide (otherStack stack')) = .next (t.withSide (otherStack f)) ∧ HoldsFramesOf t f := by
  by_cases hsp : .sp ∈ writtenParts i
  · rcases eq_of_sp_mem_writtenParts hsp with rfl | ⟨nnn, rfl⟩
    · exact execRet_otherStack hf h
    · exact execCall_otherStack hf h
  · have hunseen : (otherStack stack').unseenBy i := by
      cases i
      case call | ret => exact absurd (by simp [writtenParts]) hsp
      all_goals trivial
    refine ⟨stack', ?_, hf.of_frame (exec_changesOnly h) hsp (stack_not_mem_writtenParts hsp)⟩
    rw [exec_withSide hunseen, h, mapNext_next]

theorem stepBody_otherStack (hf : HoldsFramesOf s stack') (h : stepBody s = .next t) :
    ∃ f, stepBody (s.withSide (otherStack stack')) = .next (t.withSide (otherStack f)) ∧ HoldsFramesOf t f := by
  cases hw : s.w with
  | some x =>
    rw [stepBody_of_wait hw] at h
    cases h
    refine ⟨stack', ?_, hf.of_frame (s.waitCheck_changesOnly x) (by decide) (by decide)⟩
    rw [stepBody_of_wait (s := s.withSide _) hw, State.waitCheck_withSide rfl rfl]
  | none =>
    cases hd : decode s.fetchWord with
    | unknown op =>
      rw [stepBody_of_unknown hw hd] at h
      cases h
      exact ⟨stack', stepBody_of_unknown (s := s.withSide _) hw hd, hf⟩
    | known i =>
      rw [stepBody_of_known hw hd] at h
      rw [stepBody_of_known (s := s.withSide _) hw hd]
      exact exec_otherStack hf h

theorem transact_otherStack (hf : HoldsFramesOf s stack') {a : Transaction} (h : transact a s = .next t) :
    ∃ f, transact a (s.withSide (otherStack stack')) = .next (t.withSide (otherStack f)) ∧ HoldsFramesOf t f := by
  cases a with
  | step r =>
    obtain ⟨u, hu, rfl⟩ := mapNext_eq_next h
    obtain ⟨f, hbody, hframes⟩ := stepBody_otherStack (s := s.beginStep r) hf hu
    exact ⟨f, congrArg (mapNext State.endStep) hbody, hframes⟩
  | tick n => cases h; exact ⟨stack', rfl, hf⟩
  | keys k => cases h; exact ⟨stack', rfl, hf⟩
  | load image =>
    have hload : loadTransaction image s = .next t := h
    refine ⟨stack', ?_, hf.of_frame (loadTransaction_changesOnly hload) (by decide) (by decide)⟩
    rw [transact, loadTransaction_withSide, hload, mapNext_next]

/-- Settles O59: the next transaction is the same, and each transaction keeps the frames in use. The premise on sp is
not needed, as CALL and RET do not complete above 16. -/
theorem staleStackEntriesAreUnobservable : Obligations.StaleStackEntriesAreUnobservable := by
  unfold Obligations.StaleStackEntriesAreUnobservable
  intro s t stack' _ hf h
  have frame := nextTransaction_changesOnly s
  have hf₀ : HoldsFramesOf (nextTransaction s).2 stack' := HoldsFramesOf.of_frame hf frame (by decide) (by decide)
  obtain ⟨f, hstep, hframes⟩ := transact_otherStack hf₀ h
  have hnext : nextTransaction { s with stack := stack' } = _ := nextTransaction_withSide (otherStack stack') s
  exact ⟨f, by rw [step, hnext]; exact hstep, hframes⟩

end Sys2Proof.Machine
end

section
/-! The bytes that LD [I], Vx leaves, as LD Vx, [I] and the next fetch read them (20_memory.md rules R57 and R63,
45_index_memory.md rules R164 and R165). -/

namespace Sys2Proof.Machine

variable {s t : State} {x k : Nibble}

@[simp] theorem regIndex_toNat (k : Nibble) : regIndex k.toNat = k :=
  (BitVec.ofNat_toNat 4 k).trans (BitVec.setWidth_eq k)

/-- A byte is read at its address mod 4096 (R52). -/
theorem State.readByte_congr {a b : Nat} (h : wrapAddr a = wrapAddr b) : s.readByte a = s.readByte b :=
  congrArg (Memory.read s.mem) h

/-- After an LD [I], Vx the byte at I + k is V[k], for k up to x (R164). -/
theorem readByte_indexAddr_of_storeRegs (hs : s.mem.wf) (h : exec (.storeRegs x) s = .next t) (hk : k ≤ x) :
    t.readByte (s.indexAddr k.toNat) = s.getV k := by
  cases h
  have hlt : k.toNat < x.toNat + 1 := Nat.lt_succ_of_le hk
  rw [State.advance_readByte, (State.readByte_storeUpTo hs (by omega)).1 _ hlt, regIndex_toNat]

/-- After an LD Vx, [I] register k, for k up to x, is the byte at I + k (R165). -/
theorem getV_of_loadRegs (h : exec (.loadRegs x) s = .next t) (hk : k ≤ x) :
    t.getV k = s.readByte (s.indexAddr k.toNat) := by
  cases h
  rw [State.advance_getV, State.getV_loadUpTo s (by omega), if_pos (Nat.lt_succ_of_le hk)]

/-- Settles O39: the store and the load keep I, so they meet at the same addresses, and the registers of the state in
between are not read. -/
theorem loadRegsUndoesStoreRegs : Obligations.LoadRegsUndoesStoreRegs := by
  unfold Obligations.LoadRegsUndoesStoreRegs
  intro s x hs
  obtain ⟨t, ht⟩ : ∃ t, exec (.storeRegs x) s = .next t := ⟨_, rfl⟩
  have hti : t.i = s.i := (exec_changesOnly ht).i (by simp [writtenParts])
  refine ⟨t, ht, fun v' => ?_⟩
  obtain ⟨u, hu⟩ : ∃ u, exec (.loadRegs x) { t with v := v' } = .next u := ⟨_, rfl⟩
  refine ⟨u, hu, fun k hk => ?registers, ?index⟩
  case registers =>
    calc u.getV k
      _ = t.readByte (t.indexAddr k.toNat) := getV_of_loadRegs (s := { t with v := v' }) hu hk
      _ = t.readByte (s.indexAddr k.toNat) := by rw [State.indexAddr, State.indexAddr, hti]
      _ = s.getV k := readByte_indexAddr_of_storeRegs hs ht hk
  case index => exact ((exec_changesOnly hu).i (by simp [writtenParts])).trans hti

/-- Settles O40: the next instruction stands at the addresses of bytes 0 and 1 of the store. -/
theorem fetchSeesTheStoreBeforeIt : Obligations.FetchSeesTheStoreBeforeIt := by
  unfold Obligations.FetchSeesTheStoreBeforeIt
  intro s x hs hx hpc
  obtain ⟨t, ht⟩ : ∃ t, exec (.storeRegs x) s = .next t := ⟨_, rfl⟩
  have htpc : t.pc.toNat = s.indexAddr 0 := by
    have : t.pc = pcAdd s.pc 2 := (exec_pc ht).resolve_right id
    rw [this, pcAdd_toNat, hpc]
  have hhigh : wrapAddr t.pc.toNat = wrapAddr (s.indexAddr 0) := by rw [htpc]
  have hlow : wrapAddr (t.pc.toNat + 1) = wrapAddr (s.indexAddr 1) := by
    simp only [htpc, State.indexAddr, wrapAddr, Config.memSize]; omega
  have hbyte₀ : t.readByte (s.indexAddr 0) = s.getV 0#4 :=
    readByte_indexAddr_of_storeRegs (k := 0#4) hs ht (Nat.zero_le x.toNat)
  have hbyte₁ : t.readByte (s.indexAddr 1) = s.getV 1#4 := readByte_indexAddr_of_storeRegs hs ht hx
  refine ⟨t, ht, ?_⟩
  rw [State.fetchWord, wordOfBytes_toNat, State.readByte_congr hhigh, State.readByte_congr hlow, hbyte₀, hbyte₁]

end Sys2Proof.Machine
end

section
/-! The canonical form of memory is unique (20_memory.md rules R50 and R57): the cells of a canonical memory are exactly
the addresses that read otherwise than after reset, each with the byte read there, and a strictly rising list is known
by its members. -/

namespace Sys2Proof.Machine

variable {m : Memory} {a : Nat} {c : Byte}

/-- A listed cell is what its address reads, where the addresses rise. -/
theorem Memory.read_of_mem (hm : m.Pairwise (fun c d => c.1 < d.1)) (h : (a, c) ∈ m) : Memory.read m a = c := by
  induction m with
  | nil => cases h
  | cons y m ih =>
    obtain ⟨hy, hm⟩ := List.pairwise_cons.mp hm
    rcases List.mem_cons.mp h with rfl | h
    · exact if_pos rfl
    · exact (if_neg (Nat.ne_of_gt (hy (a, c) h))).trans (ih hm h)

/-- An address that reads otherwise than after reset is listed, with the byte read there. -/
theorem Memory.mem_of_read_ne (h : Memory.read m a ≠ initialByte a) : (a, Memory.read m a) ∈ m := by
  induction m with
  | nil => exact absurd rfl h
  | cons y m ih =>
    obtain ⟨b, d⟩ := y
    rw [Memory.read] at h ⊢
    split at h
    · next hab => rw [if_pos hab, hab]; exact List.mem_cons_self
    · next hab => rw [if_neg hab]; exact List.mem_cons_of_mem _ (ih h)

/-- The cells of a canonical memory, by what it reads. -/
theorem Memory.mem_iff_read (hm : m.wf) :
    (a, c) ∈ m ↔ a < 4096 ∧ Memory.read m a = c ∧ c ≠ initialByte a := by
  obtain ⟨hrising, hcells⟩ := hm
  constructor
  · intro h
    exact ⟨(hcells _ h).1, Memory.read_of_mem hrising h, (hcells _ h).2⟩
  · rintro ⟨_, rfl, hne⟩
    exact Memory.mem_of_read_ne hne

/-- Settles O41: the two memories have the same cells by `Memory.mem_iff_read`, and both list them by rising address. -/
theorem canonicalMemoryIsUnique : Obligations.CanonicalMemoryIsUnique := by
  unfold Obligations.CanonicalMemoryIsUnique
  intro m m' hm hm' hread
  have asymm : Std.Asymm fun c d : Host.Cell => c.1 < d.1 := ⟨fun _ _ => Nat.lt_asymm⟩
  refine hm.1.eq_of_mem_iff hm'.1 fun (a, c) => ?_
  rw [Memory.mem_iff_read hm, Memory.mem_iff_read hm']
  exact and_congr_right fun ha => by rw [hread a ha]

end Sys2Proof.Machine
end

section
/-! Decoding undoes encoding (30_encoding.md rules R82 and R84): the fields that `encode` lays out are the ones that
`decode` reads, format by format. -/

namespace Sys2Proof

/-- Group 0 holds a Sys apart from CLS and RET by its field, which R84 keeps off theirs. -/
theorem decode_formatNNN_zero {nnn : Addr} (h : sysOperandOk nnn = true) :
    decode (formatNNN 0x0#4 nnn) = .known (.sys nnn) := by
  simp only [sysOperandOk, Bool.and_eq_true, bne_iff_ne] at h
  obtain ⟨hcls, hret⟩ := h
  have word_ne (op : Word) (hne : nnn ≠ fieldNnn op) : formatNNN 0x0#4 nnn ≠ op := fun heq =>
    hne (by rw [← heq, fieldNnn_formatNNN])
  simp [decode, decodeGroup0, word_ne 0x00E0#16 hcls, word_ne 0x00EE#16 hret]

theorem decode_encode {i : Instr} (h : i.wellFormed = true) : decode (encode i) = .known i := by
  cases i
  case sys nnn => exact decode_formatNNN_zero h
  case clearScreen | ret => decide
  case skipEqReg | skipNeReg => simp [encode, decode, decodeStrict]
  case loadReg | orReg | andReg | xorReg | addVxVy | subVxVy | shiftRight | subNVxVy | shiftLeft =>
    simp [encode, decode, decodeGroup8]
  case skipKeyPressed | skipKeyNotPressed => simp [encode, decode, decodeGroupE]
  case loadDelay | waitKey | setDelay | setSound | addIndex | loadFont | storeBcd | storeRegs | loadRegs =>
    simp [encode, decode, decodeGroupF]
  all_goals simp [encode, decode]

/-- Settles O2: the word by `decode_encode`, the bytes because they are those of the word. -/
theorem decodeOfEncodeIsTheInstruction : Obligations.DecodeOfEncodeIsTheInstruction := by
  unfold Obligations.DecodeOfEncodeIsTheInstruction
  intro i h
  have hword := decode_encode h
  exact ⟨hword, fun rest => by simp [encodeBytes, decodeBytes, hword]⟩

end Sys2Proof
end

section
/-! Encoding undoes decoding, and the words that are Unknown (30_encoding.md rules R76 and R82): what the decoder may
answer for a word, said once. -/

namespace Sys2Proof

/-- The words that rule R76 lists. -/
def UnknownWord (op : Word) : Prop :=
  (fieldT op = 0x5#4 ∧ fieldN op ≠ 0#4) ∨
  (fieldT op = 0x8#4 ∧ fieldN op ∈ [0x8#4, 0x9#4, 0xA#4, 0xB#4, 0xC#4, 0xD#4, 0xF#4]) ∨
  (fieldT op = 0x9#4 ∧ fieldN op ≠ 0#4) ∨
  (fieldT op = 0xE#4 ∧ fieldKk op ∉ [0x9E#8, 0xA1#8]) ∨
  (fieldT op = 0xF#4 ∧
    fieldKk op ∉ [0x07#8, 0x0A#8, 0x15#8, 0x18#8, 0x1E#8, 0x29#8, 0x33#8, 0x55#8, 0x65#8])

/-- An answer that is true of the word: its own instruction, or Unknown with the word where R76 says so. -/
def TrueAnswer (op : Word) : Decoded → Prop
  | .known i => encode i = op ∧ i.wellFormed = true
  | .unknown op' => op' = op ∧ UnknownWord op

variable {op : Word}

/-! ### A word from the fields that are known -/

theorem formatNNN_of_fieldT {t : Nibble} (ht : fieldT op = t) : formatNNN t (fieldNnn op) = op := by
  rw [← ht, formatNNN_fields]

theorem formatXKK_of_fieldT {t : Nibble} (ht : fieldT op = t) : formatXKK t (fieldX op) (fieldKk op) = op := by
  rw [← ht, formatXKK_fields]

theorem formatXYF_of_fieldT {t : Nibble} (ht : fieldT op = t) :
    formatXYF t (fieldX op) (fieldY op) (fieldN op) = op := by
  rw [← ht, formatXYF_fields]

theorem formatXYF_of_fieldN {t f : Nibble} (ht : fieldT op = t) (hf : fieldN op = f) :
    formatXYF t (fieldX op) (fieldY op) f = op := by
  rw [← hf, formatXYF_of_fieldT ht]

theorem formatXKK_of_fieldKk {t : Nibble} {kk : Byte} (ht : fieldT op = t) (hk : fieldKk op = kk) :
    formatXKK t (fieldX op) kk = op := by
  rw [← hk, formatXKK_of_fieldT ht]

/-! ### Group by group -/

theorem nibble_eq_F {t : Nibble} : t ∉ [0x0#4, 0x1#4, 0x2#4, 0x3#4, 0x4#4, 0x5#4, 0x6#4, 0x7#4, 0x8#4, 0x9#4, 0xA#4,
    0xB#4, 0xC#4, 0xD#4, 0xE#4] → t = 0xF#4 := by
  revert t; decide

theorem decodeGroup0_trueAnswer (ht : fieldT op = 0x0#4) : TrueAnswer op (decodeGroup0 op) := by
  unfold decodeGroup0
  split
  case isTrue hcls => exact ⟨hcls.symm, rfl⟩
  case isFalse hcls =>
    split
    case isTrue hret => exact ⟨hret.symm, rfl⟩
    case isFalse hret =>
      have hword : formatNNN 0x0#4 (fieldNnn op) = op := formatNNN_of_fieldT ht
      have hne : ∀ nnn, formatNNN 0x0#4 nnn ≠ op → fieldNnn op ≠ nnn := fun nnn hn heq => hn (heq ▸ hword)
      have hok : sysOperandOk (fieldNnn op) = true := by
        simp [sysOperandOk, hne 0x0E0#12 (Ne.symm hcls), hne 0x0EE#12 (Ne.symm hret)]
      exact ⟨hword, hok⟩

theorem decodeStrict_trueAnswer {mk : Nibble → Nibble → Instr}
    (hmk : ∀ x y, encode (mk x y) = formatXYF (fieldT op) x y 0x0#4 ∧ (mk x y).wellFormed = true)
    (hop : fieldN op ≠ 0#4 → UnknownWord op) : TrueAnswer op (decodeStrict op mk) := by
  unfold decodeStrict
  split
  case isTrue hn =>
    obtain ⟨hencode, hwf⟩ := hmk (fieldX op) (fieldY op)
    exact ⟨hencode.trans (formatXYF_of_fieldN rfl hn), hwf⟩
  case isFalse hn => exact ⟨rfl, hop hn⟩

theorem decodeGroup8_trueAnswer (ht : fieldT op = 0x8#4) : TrueAnswer op (decodeGroup8 op) := by
  have hunknown : ∀ f : Nibble, f ∈ [0x0#4, 0x1#4, 0x2#4, 0x3#4, 0x4#4, 0x5#4, 0x6#4, 0x7#4, 0xE#4] ∨
      f ∈ [0x8#4, 0x9#4, 0xA#4, 0xB#4, 0xC#4, 0xD#4, 0xF#4] := by decide
  unfold decodeGroup8
  dsimp only
  split
  case h_10 =>
    have hn := (hunknown (fieldN op)).resolve_left (by simp only [List.mem_cons, List.not_mem_nil]; tauto)
    exact ⟨rfl, .inr (.inl ⟨ht, hn⟩)⟩
  all_goals exact ⟨formatXYF_of_fieldN ht (by assumption), rfl⟩

theorem decodeGroupE_trueAnswer (ht : fieldT op = 0xE#4) : TrueAnswer op (decodeGroupE op) := by
  unfold decodeGroupE
  split
  case h_3 =>
    refine ⟨rfl, .inr (.inr (.inr (.inl ⟨ht, ?_⟩)))⟩
    simp only [List.mem_cons, List.not_mem_nil]; tauto
  all_goals exact ⟨formatXKK_of_fieldKk ht (by assumption), rfl⟩

theorem decodeGroupF_trueAnswer (ht : fieldT op = 0xF#4) : TrueAnswer op (decodeGroupF op) := by
  unfold decodeGroupF
  dsimp only
  split
  case h_10 =>
    refine ⟨rfl, .inr (.inr (.inr (.inr ⟨ht, ?_⟩)))⟩
    simp only [List.mem_cons, List.not_mem_nil]; tauto
  all_goals exact ⟨formatXKK_of_fieldKk ht (by assumption), rfl⟩

/-- What the decoder answers is true of the word (R75, R76, R82). -/
theorem decode_trueAnswer (op : Word) : TrueAnswer op (decode op) := by
  unfold decode
  dsimp only
  split
  case h_1 ht => exact decodeGroup0_trueAnswer ht
  case h_6 ht => exact decodeStrict_trueAnswer (fun x y => ⟨by rw [ht]; rfl, rfl⟩) fun hn => .inl ⟨ht, hn⟩
  case h_9 ht => exact decodeGroup8_trueAnswer ht
  case h_10 ht =>
    exact decodeStrict_trueAnswer (fun x y => ⟨by rw [ht]; rfl, rfl⟩) fun hn => .inr (.inr (.inl ⟨ht, hn⟩))
  case h_14 ht => exact ⟨formatXYF_of_fieldT ht, rfl⟩
  case h_15 ht => exact decodeGroupE_trueAnswer ht
  case h_16 =>
    have ht := nibble_eq_F (t := fieldT op) (by simp only [List.mem_cons, List.not_mem_nil]; tauto)
    exact decodeGroupF_trueAnswer ht
  case h_2 ht | h_3 ht | h_11 ht | h_12 ht => exact ⟨formatNNN_of_fieldT ht, rfl⟩
  case h_4 ht | h_5 ht | h_7 ht | h_8 ht | h_13 ht => exact ⟨formatXKK_of_fieldT ht, rfl⟩

theorem encode_of_decode {i : Instr} (h : decode op = .known i) : encode i = op ∧ i.wellFormed = true := by
  have := decode_trueAnswer op
  rwa [h] at this

theorem unknownWord_of_decode {op' : Word} (h : decode op = .unknown op') : op' = op ∧ UnknownWord op := by
  have := decode_trueAnswer op
  rwa [h] at this

/-- Settles O3: a known answer is the word's own instruction. -/
theorem encodeOfDecodeIsTheWord : Obligations.EncodeOfDecodeIsTheWord :=
  fun _ _ => encode_of_decode

end Sys2Proof
end

section
/-! The unknown words and the opcode map (30_encoding.md rules R76, R78, R79): Unknown is the answer for R76's words and
for no other, and the decoder tells instructions apart by the bits that the map's masks keep. -/

namespace Sys2Proof

variable {op : Word}

/-! ### Unknown words -/

theorem decode_of_unknownWord (h : UnknownWord op) : decode op = .unknown op := by
  rcases h with ⟨ht, hn⟩ | ⟨ht, hn⟩ | ⟨ht, hn⟩ | ⟨ht, hk⟩ | ⟨ht, hk⟩
  · simp [decode, ht, decodeStrict, hn]
  · have hgroup : decode op = decodeGroup8 op := by simp [decode, ht]
    simp only [List.mem_cons, List.not_mem_nil, or_false] at hn
    rcases hn with hn | hn | hn | hn | hn | hn | hn <;> simp [hgroup, decodeGroup8, hn]
  · simp [decode, ht, decodeStrict, hn]
  · simp only [List.mem_cons, List.not_mem_nil, or_false, not_or] at hk
    simp [decode, ht, decodeGroupE, hk]
  · simp only [List.mem_cons, List.not_mem_nil, or_false, not_or] at hk
    simp [decode, ht, decodeGroupF, hk]

theorem decode_eq_unknown_iff : decode op = .unknown op ↔ UnknownWord op :=
  ⟨fun h => (unknownWord_of_decode h).2, decode_of_unknownWord⟩

theorem Instr.tag_lt (i : Instr) : i.tag < 35 := by cases i <;> simp [Instr.tag]

theorem unknown_signal_iff : (decoderSignals op).unknown = true ↔ decode op = .unknown op := by
  have hsignal : (decoderSignals op).unknown = true ↔ decodedTag (decode op) = 35 := beq_iff_eq
  rw [hsignal]
  cases h : decode op with
  | known i => simpa [decodedTag] using Nat.ne_of_lt i.tag_lt
  | unknown op' => simp [decodedTag, (unknownWord_of_decode h).1]

/-- Settles O5: by what the decoder may answer, and by running it on each group that R76 lists. -/
theorem unknownWordsAreExactlyThose : Obligations.UnknownWordsAreExactlyThose :=
  fun _ => ⟨decode_eq_unknown_iff, fun _ h => (unknownWord_of_decode h).1, unknown_signal_iff⟩

/-! ### The masked bits decide -/

theorem fieldT_and (a b : Word) : fieldT (a &&& b) = fieldT a &&& fieldT b := BitVec.extractLsb'_and

theorem fieldN_and (a b : Word) : fieldN (a &&& b) = fieldN a &&& fieldN b := BitVec.extractLsb'_and

theorem fieldKk_and (a b : Word) : fieldKk (a &&& b) = fieldKk a &&& fieldKk b := BitVec.extractLsb'_and

theorem decodedTag_decodeStrict_congr {a b : Word} {mk : Nibble → Nibble → Instr}
    (hmk : ∀ x y x' y', (mk x y).tag = (mk x' y').tag) (h : fieldN a = fieldN b) :
    decodedTag (decodeStrict a mk) = decodedTag (decodeStrict b mk) := by
  rw [decodeStrict, decodeStrict, h]
  split
  · exact hmk _ _ _ _
  · rfl

theorem decodedTag_decodeGroup8_congr {a b : Word} (h : fieldN a = fieldN b) :
    decodedTag (decodeGroup8 a) = decodedTag (decodeGroup8 b) := by
  rw [decodeGroup8, decodeGroup8, h]; split <;> rfl

theorem decodedTag_decodeGroupE_congr {a b : Word} (h : fieldKk a = fieldKk b) :
    decodedTag (decodeGroupE a) = decodedTag (decodeGroupE b) := by
  rw [decodeGroupE, decodeGroupE, h]; split <;> rfl

theorem decodedTag_decodeGroupF_congr {a b : Word} (h : fieldKk a = fieldKk b) :
    decodedTag (decodeGroupF a) = decodedTag (decodeGroupF b) := by
  rw [decodeGroupF, decodeGroupF, h]; split <;> rfl

/-- Outside group 0, whose CLS and RET are told apart by all their bits, two words that agree in the primary nibble and
in what their group looks at beside it get the same tag. -/
theorem decodedTag_decode_congr {a b : Word} (ht : fieldT a = fieldT b) (h0 : fieldT b ≠ 0x0#4)
    (hn : fieldT b ∈ [0x5#4, 0x8#4, 0x9#4] → fieldN a = fieldN b)
    (hk : fieldT b ∈ [0xE#4, 0xF#4] → fieldKk a = fieldKk b) : decodedTag (decode a) = decodedTag (decode b) := by
  rw [decode, decode, ht]
  split
  case h_1 h => exact absurd h h0
  case h_6 h | h_10 h => exact decodedTag_decodeStrict_congr (fun _ _ _ _ => rfl) (hn (by simp [h]))
  case h_9 h => exact decodedTag_decodeGroup8_congr (hn (by simp [h]))
  case h_15 h => exact decodedTag_decodeGroupE_congr (hk (by simp [h]))
  case h_16 =>
    have h : fieldT b = 0xF#4 := nibble_eq_F (by simp only [List.mem_cons, List.not_mem_nil]; tauto)
    exact decodedTag_decodeGroupF_congr (hk (by simp [h]))
  all_goals rfl

/-! ### The rows of the map -/

/-- A row is found by its tag, and its pattern is a word of its instruction. -/
theorem opcodeTable_tags : ∀ row ∈ opcodeTable,
    row.tag < 35 ∧ opcodeTable[row.tag]? = some row ∧ decodedTag (decode row.pattern) = row.tag := by decide

/-- Only the row of Sys excludes words, those of CLS and RET. -/
theorem opcodeTable_excluded : ∀ row ∈ opcodeTable,
    row.excluded = [] ∨ (row.tag = 0 ∧ row.excluded = [0x00E0#16, 0x00EE#16]) := by decide

theorem not_mem_excluded {row : OpcodeRow} (hrow : row ∈ opcodeTable) (h : decodedTag (decode op) = row.tag) :
    op ∉ row.excluded := by
  rcases opcodeTable_excluded row hrow with hnone | ⟨htag, hsome⟩
  · simp [hnone]
  · rw [htag] at h
    have hcls : op ≠ 0x00E0#16 := by rintro rfl; cases h
    have hret : op ≠ 0x00EE#16 := by rintro rfl; cases h
    simp [hsome, hcls, hret]

/-- A row's mask keeps the bits that the decoder tells the row's instruction by; of group 0 that is the whole word, or
for Sys the primary nibble with CLS and RET excluded. -/
theorem opcodeTable_masks : ∀ row ∈ opcodeTable,
    fieldT row.mask = BitVec.allOnes 4 ∧
    (fieldT row.pattern = 0x0#4 →
      row.mask = BitVec.allOnes 16 ∨ (row.tag = 0 ∧ row.excluded = [0x00E0#16, 0x00EE#16])) ∧
    (fieldT row.pattern ∈ [0x5#4, 0x8#4, 0x9#4] → fieldN row.mask = BitVec.allOnes 4) ∧
    (fieldT row.pattern ∈ [0xE#4, 0xF#4] → fieldKk row.mask = BitVec.allOnes 8) := by decide

theorem rowSelects_iff {row : OpcodeRow} :
    rowSelects row op = true ↔ op &&& row.mask = row.pattern ∧ op ∉ row.excluded := by
  simp [rowSelects]

theorem decodedTag_of_rowSelects {row : OpcodeRow} (hrow : row ∈ opcodeTable) (h : rowSelects row op = true) :
    decodedTag (decode op) = row.tag := by
  obtain ⟨-, -, hpattern⟩ := opcodeTable_tags row hrow
  obtain ⟨hmaskT, hzero, hmaskN, hmaskKk⟩ := opcodeTable_masks row hrow
  obtain ⟨hmatch, hnot⟩ := rowSelects_iff.mp h
  have ht : fieldT op = fieldT row.pattern := by rw [← hmatch, fieldT_and, hmaskT, BitVec.and_allOnes]
  by_cases h0 : fieldT row.pattern = 0x0#4
  · rcases hzero h0 with hmask | ⟨htag, hexcluded⟩
    · have hop : op = row.pattern := by rw [← hmatch, hmask, BitVec.and_allOnes]
      rw [hop, hpattern]
    · simp only [hexcluded, List.mem_cons, List.not_mem_nil, or_false, not_or] at hnot
      obtain ⟨hcls, hret⟩ := hnot
      simp [decode, ht, h0, decodeGroup0, hcls, hret, htag, decodedTag, Instr.tag]
  · rw [← hpattern]
    exact decodedTag_decode_congr ht h0 (fun hg => by rw [← hmatch, fieldN_and, hmaskN hg, BitVec.and_allOnes])
      (fun hg => by rw [← hmatch, fieldKk_and, hmaskKk hg, BitVec.and_allOnes])

open Laws.EncodeMatchesRow in
theorem encode_matchesRow (i : Instr) : Statement i := by
  cases i
  exacts [sys _, clearScreen, ret, jump _, call _, skipEqImm _ _, skipNeImm _ _, skipEqReg _ _, loadImmediate _ _,
    addImmediate _ _, loadReg _ _, orReg _ _, andReg _ _, xorReg _ _, addVxVy _ _, subVxVy _ _, shiftRight _ _,
    subNVxVy _ _, shiftLeft _ _, skipNeReg _ _, loadIndex _, jumpOffset _, random _ _, draw _ _ _, skipKeyPressed _,
    skipKeyNotPressed _, loadDelay _, waitKey _, setDelay _, setSound _, addIndex _, loadFont _, storeBcd _,
    storeRegs _, loadRegs _]

theorem rowSelects_of_decodedTag {row : OpcodeRow} (hrow : row ∈ opcodeTable)
    (h : decodedTag (decode op) = row.tag) : rowSelects row op = true := by
  obtain ⟨hlt, hfound, -⟩ := opcodeTable_tags row hrow
  refine rowSelects_iff.mpr ⟨?_, not_mem_excluded hrow h⟩
  cases hd : decode op with
  | unknown op' => rw [hd, decodedTag] at h; omega
  | known i =>
    rw [hd, decodedTag] at h
    obtain ⟨row', hfound', -, hmatch⟩ := encode_matchesRow i
    obtain rfl : row' = row := by rw [h, hfound] at hfound'; exact (Option.some.inj hfound').symm
    rw [← (encode_of_decode hd).1, hmatch]

/-- Settles O4: the masked bits of a selecting word decide its tag, and a known word is the encoding of its
instruction, which matches the row with its tag. -/
theorem decoderAgreesWithOpcodeMap : Obligations.DecoderAgreesWithOpcodeMap :=
  fun _ _ hrow => ⟨decodedTag_of_rowSelects hrow, rowSelects_of_decodedTag hrow⟩

end Sys2Proof
end

section
/-! The decoder at work (30_encoding.md rules R71, R75 and R80): the spec's sample words, the fetch, and a STEP outside
a key wait, as one equation for a known word and one for an unknown word. -/

namespace Sys2Proof.Machine

/-- Settles O1, by running the decoder on each word. -/
theorem specWordsDecodeAsListed : Obligations.SpecWordsDecodeAsListed := by
  unfold Obligations.SpecWordsDecodeAsListed
  decide

/-- Settles O6: reducing the second address before the read changes nothing, as every read reduces it (R52). -/
theorem fetchIsBigEndian : Obligations.FetchIsBigEndian := by
  unfold Obligations.FetchIsBigEndian
  intro s
  have hlow : s.readByte ((s.pc.toNat + 1) % 4096) = s.readByte (s.pc.toNat + 1) :=
    State.readByte_congr (wrapAddr_wrapAddr (s.pc.toNat + 1))
  rw [State.fetchWord, wordOfBytes_toNat, hlow]

variable {ps : List Part} {s t s₀ : State} {r : Byte}

/-! ### The frame of a STEP around what it runs -/

theorem ChangesOnly.mono {qs : List Part} (h : ChangesOnly ps s t) (hsub : ps ⊆ qs) : ChangesOnly qs s t :=
  have keep {p : Part} : p ∉ qs → p ∉ ps := mt (hsub ·)
  ⟨h.v ∘ keep, h.i ∘ keep, h.pc ∘ keep, h.stack ∘ keep, h.sp ∘ keep, h.dt ∘ keep, h.st ∘ keep, h.mem ∘ keep,
    h.pix ∘ keep, h.keys ∘ keep, h.w ∘ keep, h.prevKeys ∘ keep, h.r ∘ keep, h.draws ∘ keep, h.result ∘ keep,
    h.phase ∘ keep, h.schedule ∘ keep⟩

theorem ChangesOnly.beginStep (h : ChangesOnly ps s t) (r : Byte) (hr : .r ∈ ps := by decide)
    (hresult : .result ∈ ps := by decide) (hphase : .phase ∈ ps := by decide) : ChangesOnly ps s (t.beginStep r) :=
  { h with
    r := fun hn => absurd hr hn, result := fun hn => absurd hresult hn, phase := fun hn => absurd hphase hn }

theorem ChangesOnly.endStep (h : ChangesOnly ps s t) (hp : .prevKeys ∈ ps := by decide) : ChangesOnly ps s t.endStep :=
  { h with prevKeys := fun hn => absurd hp hn }

theorem ChangesOnly.unknownWord (h : ChangesOnly ps s t) (op : Word) (hpc : .pc ∈ ps := by decide)
    (hresult : .result ∈ ps := by decide) : ChangesOnly ps s (t.unknownWord op) :=
  (h.raise _ hresult).advance hpc

/-- The next fetch is the same where pc and memory are (R71). -/
theorem ChangesOnly.fetchWord (h : ChangesOnly ps s t) (hpc : .pc ∉ ps) (hmem : .mem ∉ ps) :
    t.fetchWord = s.fetchWord := by
  rw [State.fetchWord, State.fetchWord, h.pc hpc, h.mem hmem, h.mem hmem]

/-! ### A STEP that fetches -/

theorem step_of_nextTransaction {a : Transaction} (h : nextTransaction s = (a, s₀)) : step s = transact a s₀ := by
  rw [step, h]

theorem changesOnly_of_nextTransaction {a : Transaction} (h : nextTransaction s = (a, s₀)) :
    ChangesOnly [.draws, .schedule] s s₀ := by
  have := nextTransaction_changesOnly s
  rwa [h] at this

/-- Where the schedule is empty the next transaction is a STEP. -/
theorem nextTransaction_of_nil (h : s.schedule = []) :
    nextTransaction s = (.step (Config.randomByte s.draws), { s with draws := s.draws + 1 }) := by
  rw [nextTransaction, h]

/-- The STEP under way sees the wait and the word that the host left (R47, R71). -/
theorem beginStep_sees_wait_and_word {a : Transaction} (h : nextTransaction s = (a, s₀)) (r : Byte) :
    (s₀.beginStep r).w = s.w ∧ (s₀.beginStep r).fetchWord = s.fetchWord :=
  have frame := changesOnly_of_nextTransaction h
  ⟨frame.w (by decide), frame.fetchWord (by decide) (by decide)⟩

theorem step_of_known {i : Instr} (hnext : nextTransaction s = (.step r, s₀)) (hw : s.w = none)
    (hi : decode s.fetchWord = .known i) : step s = mapNext State.endStep (exec i (s₀.beginStep r)) := by
  obtain ⟨hwait, hfetch⟩ := beginStep_sees_wait_and_word hnext r
  rw [step_of_nextTransaction hnext, transact, stepTransaction, stepBody_of_known (hwait.trans hw) (hfetch ▸ hi)]

theorem step_of_unknown {op : Word} (hnext : nextTransaction s = (.step r, s₀)) (hw : s.w = none)
    (hop : decode s.fetchWord = .unknown op) : step s = .next ((s₀.beginStep r).unknownWord op).endStep := by
  obtain ⟨hwait, hfetch⟩ := beginStep_sees_wait_and_word hnext r
  rw [step_of_nextTransaction hnext, transact, stepTransaction, stepBody_of_unknown (hwait.trans hw) (hfetch ▸ hop),
    mapNext_next]

/-- Settles O7: `nextTransaction_of_nil`, and the outcome of exec passed through `step_of_known`. -/
theorem stepRunsTheDecodedInstruction : Obligations.StepRunsTheDecodedInstruction := by
  unfold Obligations.StepRunsTheDecodedInstruction
  refine ⟨fun s h => ⟨_, nextTransaction_of_nil h⟩, fun s s₀ r i hnext hw hi => ?_⟩
  have hstep : step s = mapNext State.endStep (exec i { s₀ with r := r, result := .ok, phase := .started }) :=
    step_of_known hnext hw hi
  refine ⟨fun t ht => ?_, fun e he => ?_, fun e he => ?_⟩
  · rw [hstep, ht]; rfl
  · rw [hstep, he, mapNext_fault]
  · rw [hstep, he, mapNext_refused]

/-- Settles O8: `step_of_unknown`, where the reported word is the fetched one, and the frame of its operations. -/
theorem unknownOpcodeIsReportedAndSkipped : Obligations.UnknownOpcodeIsReportedAndSkipped := by
  unfold Obligations.UnknownOpcodeIsReportedAndSkipped
  intro s s₀ r op hnext hw hop
  have frame := changesOnly_of_nextTransaction hnext
  have hpc : s₀.pc = s.pc := frame.pc (by decide)
  have hkeys : s₀.keys = s.keys := frame.keys (by decide)
  obtain ⟨rfl, -⟩ := unknownWord_of_decode hop
  refine ⟨_, step_of_unknown hnext hw hop, ?result, ?pc, hkeys, ?frame⟩
  case result => rw [← hpc]; rfl
  case pc => rw [← hpc]; exact pcAdd_toNat s₀.pc 2
  case frame => exact (((frame.mono (by decide)).beginStep r).unknownWord _).endStep

end Sys2Proof.Machine
end

section
/-! The rules of control flow (41_control_flow.md rules R100 to R110): SYS, the jumps and the compare skips, CALL and RET.
The word of an instruction decodes to it by `decode_encode`; what the instruction leaves alone is its frame. -/

namespace Sys2Proof.Machine

variable {s : State}

/-! ### SYS and the jumps -/

@[simp] theorem zextAddr_toNat (nnn : Addr) : (zextAddr nnn).toNat = nnn.toNat :=
  BitVec.toNat_setWidth_of_le (by decide)

theorem offsetTarget_toNat (nnn : Addr) (c : Byte) :
    (offsetTarget nnn c).toNat = (nnn.toNat + c.toNat) % 4096 := by
  simp only [offsetTarget, Config.memSize, BitVec.toNat_ofNat]; omega

/-- Settles O10: a legal operand of Sys decodes, and Advance is all that it does. -/
theorem sysOnlyAdvances : Obligations.SysOnlyAdvances := by
  unfold Obligations.SysOnlyAdvances
  intro s nnn hcls hret
  have hok : sysOperandOk nnn = true := by simp [sysOperandOk, hcls, hret]
  exact ⟨decode_formatNNN_zero hok, s.advance, rfl, pcAdd_toNat s.pc 2, (ChangesOnly.refl _ s).advance⟩

/-- Settles O11: the jump is one write of pc. -/
theorem jumpSetsPc : Obligations.JumpSetsPc := by
  unfold Obligations.JumpSetsPc
  intro s nnn
  exact ⟨decode_encode (i := .jump nnn) rfl, s.setPc (zextAddr nnn), rfl, zextAddr_toNat nnn,
    (ChangesOnly.refl _ s).setPc _⟩

/-- Settles O12: the jump is one write of pc, of the sum reduced mod 4096. -/
theorem jumpOffsetAddsV0 : Obligations.JumpOffsetAddsV0 := by
  unfold Obligations.JumpOffsetAddsV0
  intro s nnn
  exact ⟨decode_encode (i := .jumpOffset nnn) rfl, s.setPc (offsetTarget nnn (s.getV 0#4)), rfl,
    offsetTarget_toNat nnn _, (ChangesOnly.refl _ s).setPc _⟩

/-! ### The compare skips -/

theorem State.skipIf_pc_toNat (s : State) (c : Bool) :
    (s.skipIf c).pc.toNat = (s.pc.toNat + if c then 4 else 2) % 4096 := by
  rw [State.skipIf_eq, State.setPc_pc, pcAdd_toNat]

theorem State.skipIf_beq_pc_toNat (s : State) (a b : Byte) :
    (s.skipIf (a == b)).pc.toNat = (s.pc.toNat + if a = b then 4 else 2) % 4096 := by
  simp only [State.skipIf_pc_toNat, beq_iff_eq]

theorem State.skipIf_bne_pc_toNat (s : State) (a b : Byte) :
    (s.skipIf (a != b)).pc.toNat = (s.pc.toNat + if a ≠ b then 4 else 2) % 4096 := by
  simp only [State.skipIf_pc_toNat, bne_iff_ne]

/-- Settles O13: both are the skip rule, on the comparison and on its negation. -/
theorem immediateSkipsMovePc : Obligations.ImmediateSkipsMovePc := by
  unfold Obligations.ImmediateSkipsMovePc
  intro s x kk
  exact ⟨decode_encode (i := .skipEqImm x kk) rfl, decode_encode (i := .skipNeImm x kk) rfl, _, _, rfl, rfl,
    s.skipIf_beq_pc_toNat _ kk, s.skipIf_bne_pc_toNat _ kk, (ChangesOnly.refl _ s).skipIf _,
    (ChangesOnly.refl _ s).skipIf _⟩

theorem decodeStrict_formatXYF (t x y n : Nibble) (mk : Nibble → Nibble → Instr) :
    decodeStrict (formatXYF t x y n) mk = if n = 0#4 then .known (mk x y) else .unknown (formatXYF t x y n) := by
  simp only [decodeStrict, fieldX_formatXYF, fieldY_formatXYF, fieldN_formatXYF]

/-- Settles O14: groups 5 and 9 are the strict ones (D12), and a register is always equal to itself. -/
theorem registerSkipsMovePc : Obligations.RegisterSkipsMovePc := by
  unfold Obligations.RegisterSkipsMovePc
  intro s x y n
  have heq := s.skipIf_beq_pc_toNat (s.getV x) (s.getV y)
  have hne := s.skipIf_bne_pc_toNat (s.getV x) (s.getV y)
  refine ⟨?group5, ?group9, _, _, rfl, rfl, heq, hne, ?same, (ChangesOnly.refl _ s).skipIf _,
    (ChangesOnly.refl _ s).skipIf _⟩
  case group5 | group9 => simp only [decode, fieldT_formatXYF, decodeStrict_formatXYF]
  case same =>
    rintro rfl
    exact ⟨by rw [heq, if_pos rfl], by rw [hne, if_neg (not_not_intro rfl)]⟩

/-! ### CALL and RET -/

/-- CALL with room on the stack: what it pushes, where it goes, and its frame (R103). -/
theorem exec_call_pushes (hs : s.sp.toNat < 16) (nnn : Addr) :
    ∃ t, exec (.call nnn) s = .next t ∧ t.pc.toNat = nnn.toNat ∧ t.sp.toNat = s.sp.toNat + 1 ∧
      t.stack = s.stack.set s.sp.toNat (pcAdd s.pc 2) hs ∧ ChangesOnly [.pc, .sp, .stack] s t :=
  ⟨_, execCall_of_lt hs nnn, zextAddr_toNat nnn, sp_add_one s.sp hs, rfl,
    ((ChangesOnly.refl _ s).setStackSp _ _).setPc _⟩

/-- RET with a frame on the stack: where it goes, and its frame (R101). -/
theorem exec_ret_pops (hpos : 0 < s.sp.toNat) (hle : s.sp.toNat ≤ 16) :
    ∃ t, exec .ret s = .next t ∧ t.pc = s.stack[s.sp.toNat - 1]'(by omega) ∧ t.sp.toNat = s.sp.toNat - 1 ∧
      ChangesOnly [.pc, .sp] s t :=
  ⟨_, execRet_of_pos hpos hle, rfl, sp_sub_one s.sp hpos, ((ChangesOnly.refl _ s).setSp _).setPc _⟩

/-- Settles O15: `exec_call_pushes` below 16 frames, the overflow at 16. -/
theorem callPushesOrOverflows : Obligations.CallPushesOrOverflows := by
  unfold Obligations.CallPushesOrOverflows
  intro s nnn
  refine ⟨decode_encode (i := .call nnn) rfl, fun hs => ?push, fun hfull => ?overflow⟩
  case push =>
    obtain ⟨t, hcall, hpc, hsp, hstack, frame⟩ := exec_call_pushes hs nnn
    refine ⟨t, hcall, hpc, hsp, ?_, fun j hj hne => ?_, frame⟩
    · simp only [hstack, Vector.getElem_set_self, pcAdd_toNat]
    · simp only [hstack, Vector.getElem_set_ne _ hj hne.symm]
  case overflow => exact ⟨_, execCall_of_full hfull nnn, rfl, (ChangesOnly.refl _ s).raise _⟩

/-- Settles O16: `exec_ret_pops` with a frame in use, the underflow with none. -/
theorem returnPopsOrUnderflows : Obligations.ReturnPopsOrUnderflows := by
  unfold Obligations.ReturnPopsOrUnderflows
  refine ⟨decode_encode (i := .ret) rfl, fun s => ⟨fun ⟨hpos, hle⟩ => exec_ret_pops hpos hle, fun hempty => ?_⟩⟩
  exact ⟨_, execRet_of_empty hempty, rfl, (ChangesOnly.refl _ s).raise _⟩

end Sys2Proof.Machine
end

section
/-! Stack discipline (95_test_vectors.md T7): a CALL, a run that leaves the stack as it found it, and a RET make such a
run again, so calls and returns nest to any depth that fits. -/

namespace Sys2Proof.Machine

variable {ps : List Part} {s t u : State}

/-! ### Runs of instructions -/

theorem execAll_cons {i : Instr} (h : exec i s = .next t) (is : List Instr) : execAll (i :: is) s = execAll is t := by
  rw [execAll, h]

theorem execAll_append (is js : List Instr) (s : State) :
    execAll (is ++ js) s = (execAll is s).bind (execAll js) := by
  induction is generalizing s with
  | nil => rfl
  | cons i is ih =>
    rw [List.cons_append, execAll, execAll]
    cases exec i s with
    | next t => exact ih t
    | fault | refused => rfl

theorem ChangesOnly.trans (h : ChangesOnly ps s t) (h' : ChangesOnly ps t u) : ChangesOnly ps s u where
  v hp k := (h'.v hp k).trans (h.v hp k)
  i hp := (h'.i hp).trans (h.i hp)
  pc hp := (h'.pc hp).trans (h.pc hp)
  stack hp := (h'.stack hp).trans (h.stack hp)
  sp hp := (h'.sp hp).trans (h.sp hp)
  dt hp := (h'.dt hp).trans (h.dt hp)
  st hp := (h'.st hp).trans (h.st hp)
  mem hp a := (h'.mem hp a).trans (h.mem hp a)
  pix hp := (h'.pix hp).trans (h.pix hp)
  keys hp := (h'.keys hp).trans (h.keys hp)
  w hp := (h'.w hp).trans (h.w hp)
  prevKeys hp := (h'.prevKeys hp).trans (h.prevKeys hp)
  r hp := (h'.r hp).trans (h.r hp)
  draws hp := (h'.draws hp).trans (h.draws hp)
  result hp := (h'.result hp).trans (h.result hp)
  phase hp := (h'.phase hp).trans (h.phase hp)
  schedule hp := (h'.schedule hp).trans (h.schedule hp)

/-! ### Calls and their returns -/

/-- From s to u the stack is back as it was: as many frames in use, each as before, and beside it only pc moved. -/
structure StackRestored (s u : State) : Prop where
  sp : u.sp = s.sp
  frames : HoldsFramesOf s u.stack
  frame : ChangesOnly [.pc, .sp, .stack] s u

/-- A call that is followed by a run which restores the stack is undone by one return, which goes back to the address
after the call (R101, R103). -/
theorem exec_call_ret (hs : s.sp.toNat < 16) (nnn : Addr) :
    ∃ t, exec (.call nnn) s = .next t ∧ t.sp.toNat = s.sp.toNat + 1 ∧
      ∀ u, StackRestored t u → ∃ u', exec .ret u = .next u' ∧ StackRestored s u' ∧ u'.pc = pcAdd s.pc 2 := by
  obtain ⟨t, hcall, -, hsp, hstack, hpush⟩ := exec_call_pushes hs nnn
  refine ⟨t, hcall, hsp, fun u ⟨husp, hframes, hrun⟩ => ?_⟩
  have hsp' : u.sp.toNat = s.sp.toNat + 1 := by rw [husp, hsp]
  obtain ⟨u', hret, hpc, hback, hpop⟩ := exec_ret_pops (s := u) (by omega) (by omega)
  have hframe (j : Nat) (hj : j < 16) (hjs : j < s.sp.toNat + 1) :
      u.stack[j] = (s.stack.set s.sp.toNat (pcAdd s.pc 2) hs)[j] := by
    rw [hframes j hj (hsp ▸ hjs)]; simp only [hstack]
  refine ⟨u', hret, ⟨?sp, fun j hj hjs => ?frames, (hpush.trans hrun).trans (hpop.mono (by decide))⟩, ?pc⟩
  case sp => exact BitVec.eq_of_toNat_eq (by omega)
  case frames =>
    rw [hpop.stack (by decide), hframe j hj (by omega), Vector.getElem_set_ne _ hj (by omega)]
  case pc =>
    have htop : u.sp.toNat - 1 = s.sp.toNat := by omega
    simp only [hpc, htop, hframe s.sp.toNat hs (by omega), Vector.getElem_set_self]

/-- Settles O17, by induction on the calls: the returns of the later ones restore the stack, and one return more undoes
the first. -/
theorem returnsUndoCallsInReverseOrder : Obligations.ReturnsUndoCallsInReverseOrder := by
  unfold Obligations.ReturnsUndoCallsInReverseOrder
  intro s targets hfit
  induction targets generalizing s with
  | nil => exact ⟨s, s, rfl, rfl, rfl, rfl, fun _ _ _ => rfl, rfl, ChangesOnly.refl _ s⟩
  | cons nnn targets ih =>
    rw [List.length_cons] at hfit
    obtain ⟨t₁, hcall, hsp, undo⟩ := exec_call_ret (s := s) (by omega) nnn
    obtain ⟨t, u, hcalls, hdepth, hrets, husp, hframes, -, hrun⟩ := ih t₁ (by omega)
    obtain ⟨u', hret, ⟨hsp', hframes', hframe⟩, hpc⟩ := undo u ⟨husp, hframes, hrun⟩
    refine ⟨t, u', ?calls, ?depth, ?rets, hsp', hframes', ?pc, hframe⟩
    case calls => rw [List.map_cons, execAll_cons hcall, hcalls]
    case depth => rw [hdepth, hsp, List.length_cons]; omega
    case rets =>
      rw [List.length_cons, List.replicate_succ', execAll_append, hrets]
      exact execAll_cons hret []
    case pc => rw [if_neg (List.cons_ne_nil nnn targets), hpc, pcAdd_toNat]

end Sys2Proof.Machine
end

section
/-! The rules of the ALU (42_alu.md rules R120 to R131). An instruction writes Vx and advances, or writes Vx, then VF,
and advances (10_state.md rule R21): what such a write leaves behind is said once for each form, and an instruction adds
its result and its flag as numbers. -/

namespace Sys2Proof.Machine

variable {s : State} {x : Nibble}

/-! ### The two forms of a write -/

theorem State.setV_advance_leaves (s : State) (x : Nibble) (c : Byte) :
    (∀ k, k ≠ x → (s.setV x c).advance.getV k = s.getV k) ∧
      (s.setV x c).advance.pc.toNat = (s.pc.toNat + 2) % 4096 ∧ ChangesOnly [.v, .pc] s (s.setV x c).advance :=
  ⟨fun _ hk => State.getV_setV_of_ne hk c, pcAdd_toNat s.pc 2, ((ChangesOnly.refl _ s).setV x c).advance⟩

theorem State.setV_advance_spec (s : State) (x : Nibble) (c : Byte) :
    (s.setV x c).advance.getV x = c ∧ (∀ k, k ≠ x → (s.setV x c).advance.getV k = s.getV k) ∧
      (s.setV x c).advance.pc.toNat = (s.pc.toNat + 2) % 4096 ∧ ChangesOnly [.v, .pc] s (s.setV x c).advance :=
  ⟨s.getV_setV_same x c, s.setV_advance_leaves x c⟩

theorem State.setResultFlag_advance_leaves (s : State) (x : Nibble) (c : Byte) (f : Bool) :
    (∀ k, k ≠ x → k ≠ vf → (s.setResultFlag x c f).advance.getV k = s.getV k) ∧
      (s.setResultFlag x c f).advance.pc.toNat = (s.pc.toNat + 2) % 4096 ∧
      ChangesOnly [.v, .pc] s (s.setResultFlag x c f).advance :=
  ⟨fun _ hx hvf => State.getV_setResultFlag_of_ne (not_or_intro hx hvf) c f, pcAdd_toNat s.pc 2,
    ((ChangesOnly.refl _ s).setResultFlag x c f).advance⟩

/-- The flag is written last, so Vx keeps the result only where x is not F (D4). -/
theorem State.getV_setResultFlag_same (hx : x ≠ vf) (c : Byte) (f : Bool) : (s.setResultFlag x c f).getV x = c := by
  rw [State.getV_setResultFlag, if_neg hx, if_pos rfl]

theorem State.getV_setResultFlag_vf (s : State) (x : Nibble) (c : Byte) (f : Bool) :
    (s.setResultFlag x c f).getV vf = flagByte f :=
  (s.setV x c).getV_setV_same vf _

/-! ### Results and flags as numbers -/

theorem byte_sub_toNat (a b : Byte) : (a - b).toNat = (a.toNat + 256 - b.toNat) % 256 := by
  have := b.isLt
  rw [BitVec.toNat_sub]; omega

theorem byte_half_toNat (a : Byte) : (a >>> 1).toNat = a.toNat / 2 := by
  rw [BitVec.toNat_ushiftRight, Nat.shiftRight_eq_div_pow, pow_one]

theorem byte_double_toNat (a : Byte) : (a <<< 1).toNat = a.toNat * 2 % 256 := by
  rw [BitVec.toNat_shiftLeft, Nat.shiftLeft_eq, pow_one]

theorem flagByte_carryOut_toNat (a b : Byte) :
    (flagByte (carryOut a b)).toNat = if a.toNat + b.toNat > 255 then 1 else 0 := by
  simp only [flagByte_toNat, carryOut, decide_eq_true_eq]

theorem flagByte_noBorrow_toNat (a b : Byte) :
    (flagByte (noBorrow a b)).toNat = if a.toNat ≥ b.toNat then 1 else 0 := by
  simp only [flagByte_toNat, noBorrow, decide_eq_true_eq]

theorem flagByte_toNat_eq_toNat (b : Bool) : (flagByte b).toNat = b.toNat := by cases b <;> rfl

/-- A bit stored in a register is that binary digit of the number. -/
theorem flagByte_getLsbD_toNat (a : Byte) (j : Nat) : (flagByte (a.getLsbD j)).toNat = a.toNat / 2 ^ j % 2 :=
  (flagByte_toNat_eq_toNat _).trans (Nat.toNat_testBit a.toNat j)

theorem flagByte_shiftedOutRight_toNat (a : Byte) : (flagByte (shiftedOutRight a)).toNat = a.toNat % 2 := by
  rw [shiftedOutRight, flagByte_getLsbD_toNat, pow_zero, Nat.div_one]

theorem flagByte_shiftedOutLeft_toNat (a : Byte) : (flagByte (shiftedOutLeft a)).toNat = a.toNat / 128 := by
  have := a.isLt
  rw [shiftedOutLeft, flagByte_getLsbD_toNat]; omega

/-! ### Loads and the immediate add -/

/-- Settles O19: the load is one write of Vx. -/
theorem loadImmediateSetsVx : Obligations.LoadImmediateSetsVx := by
  unfold Obligations.LoadImmediateSetsVx
  intro s x kk
  exact ⟨decode_encode (i := .loadImmediate x kk) rfl, _, rfl, s.setV_advance_spec x kk⟩

/-- Settles O20: the load is one write of Vx, of what Vy held before. -/
theorem loadRegCopiesVy : Obligations.LoadRegCopiesVy := by
  unfold Obligations.LoadRegCopiesVy
  intro s x y
  exact ⟨decode_encode (i := .loadReg x y) rfl, _, rfl, s.setV_advance_spec x (s.getV y)⟩

/-- Settles O21: the add is one write of Vx, so VF is among the registers left alone (D7). -/
theorem addImmediateWrapsWithoutFlag : Obligations.AddImmediateWrapsWithoutFlag := by
  unfold Obligations.AddImmediateWrapsWithoutFlag
  intro s x kk
  obtain ⟨hvalue, hrest⟩ := s.setV_advance_spec x (s.getV x + kk)
  exact ⟨decode_encode (i := .addImmediate x kk) rfl, _, rfl, by rw [hvalue, BitVec.toNat_add], hrest⟩

/-! ### Logic -/

/-- Settles O22: each is one write of Vx, so VF is among the registers left alone (D6), and a bit of the result is read
off its operation. -/
theorem logicOpsWorkBitwiseWithoutFlag : Obligations.LogicOpsWorkBitwiseWithoutFlag := by
  unfold Obligations.LogicOpsWorkBitwiseWithoutFlag
  intro s x y
  refine ⟨decode_encode (i := .orReg x y) rfl, decode_encode (i := .andReg x y) rfl,
    decode_encode (i := .xorReg x y) rfl, _, _, _, rfl, rfl, rfl, fun b _ => ?or, fun b _ => ?and, fun b _ => ?xor,
    ?rest⟩
  case or => rw [State.advance_getV, State.getV_setV_same, BitVec.getLsbD_or]
  case and => rw [State.advance_getV, State.getV_setV_same, BitVec.getLsbD_and]
  case xor => rw [State.advance_getV, State.getV_setV_same, BitVec.getLsbD_xor]
  case rest =>
    simp only [List.forall_mem_cons]
    exact ⟨s.setV_advance_leaves x _, s.setV_advance_leaves x _, s.setV_advance_leaves x _, List.forall_mem_nil _⟩

/-! ### Arithmetic and shifts, with their flags -/

/-- Settles O23: the sum and its carry, written by `State.setResultFlag`. -/
theorem addSetsSumThenCarry : Obligations.AddSetsSumThenCarry := by
  unfold Obligations.AddSetsSumThenCarry
  intro s x y
  refine ⟨decode_encode (i := .addVxVy x y) rfl, _, rfl, fun hx => ?sum, ?carry,
    s.setResultFlag_advance_leaves x _ _⟩
  case sum => rw [State.advance_getV, State.getV_setResultFlag_same hx, BitVec.toNat_add]
  case carry => rw [State.advance_getV, State.getV_setResultFlag_vf, flagByte_carryOut_toNat]

/-- Settles O24: the two differences and their borrows, with the operands exchanged. -/
theorem subtractSetsDifferenceThenNoBorrow : Obligations.SubtractSetsDifferenceThenNoBorrow := by
  unfold Obligations.SubtractSetsDifferenceThenNoBorrow
  intro s x y
  refine ⟨decode_encode (i := .subVxVy x y) rfl, decode_encode (i := .subNVxVy x y) rfl, _, _, rfl, rfl,
    fun hx => ?sub, fun hx => ?subn, ?flagSub, ?flagSubn, ?rest⟩
  case sub | subn => rw [State.advance_getV, State.getV_setResultFlag_same hx, byte_sub_toNat]
  case flagSub | flagSubn => rw [State.advance_getV, State.getV_setResultFlag_vf, flagByte_noBorrow_toNat]
  case rest =>
    simp only [List.forall_mem_cons]
    exact ⟨s.setResultFlag_advance_leaves x _ _, s.setResultFlag_advance_leaves x _ _, List.forall_mem_nil _⟩

/-- Settles O25: Vx is shifted in place (D5), and the flag is the binary digit that the shift drops. -/
theorem shiftsSetVxThenBitShiftedOut : Obligations.ShiftsSetVxThenBitShiftedOut := by
  unfold Obligations.ShiftsSetVxThenBitShiftedOut
  intro s x y
  refine ⟨decode_encode (i := .shiftRight x y) rfl, decode_encode (i := .shiftLeft x y) rfl, _, _, rfl, rfl,
    fun hx => ?half, fun hx => ?double, ?flagRight, ?flagLeft, ?rest⟩
  case half => rw [State.advance_getV, State.getV_setResultFlag_same hx, byte_half_toNat]
  case double => rw [State.advance_getV, State.getV_setResultFlag_same hx, byte_double_toNat]
  case flagRight => rw [State.advance_getV, State.getV_setResultFlag_vf, flagByte_shiftedOutRight_toNat]
  case flagLeft => rw [State.advance_getV, State.getV_setResultFlag_vf, flagByte_shiftedOutLeft_toNat]
  case rest =>
    simp only [List.forall_mem_cons]
    exact ⟨s.setResultFlag_advance_leaves x _ _, s.setResultFlag_advance_leaves x _ _, List.forall_mem_nil _⟩

/-! ### Random -/

/-- A STEP outside a key wait, on a known word (R80). -/
theorem stepTransaction_of_known {i : Instr} (hw : s.w = none) (hi : decode s.fetchWord = .known i) (r : Byte) :
    stepTransaction r s = mapNext State.endStep (exec i (s.beginStep r)) := by
  rw [stepTransaction, stepBody_of_known (s := s.beginStep r) hw hi]

/-- Settles O26: one write of Vx from the latch, and the latch of a STEP(r) is r. -/
theorem randomMasksTheStepsByte : Obligations.RandomMasksTheStepsByte := by
  unfold Obligations.RandomMasksTheStepsByte
  intro s x kk
  refine ⟨decode_encode (i := .random x kk) rfl, ⟨_, rfl, s.setV_advance_spec x (s.r &&& kk)⟩, fun r hw hi => ?_⟩
  exact ⟨_, stepTransaction_of_known hw hi r, (s.beginStep r).getV_setV_same x (r &&& kk)⟩

end Sys2Proof.Machine
end

section
/-! CLS and DRW (43_display.md rules R140 to R143). What DRW does to a pixel and to VF is read off `drawSprite_spec`;
drawing twice inverts the same pixels twice. -/

namespace Sys2Proof.Machine

variable {s t : State} {x y n : Nibble} {px py : Nat}

/-- Settles O27: CLS is one write of the whole buffer, of the cleared one. -/
theorem clearScreenZeroesOnlyPixels : Obligations.ClearScreenZeroesOnlyPixels := by
  unfold Obligations.ClearScreenZeroesOnlyPixels
  exact ⟨decode_encode (i := .clearScreen) rfl, fun s => ⟨(s.setPix fbClear).advance, rfl,
    fun px _ py _ => pixelOf_fbClear px py, pcAdd_toNat s.pc 2, ((ChangesOnly.refl _ s).setPix _).advance⟩⟩

/-! ### What DRW does to the screen and to VF -/

/-- The pixels that DRW Vx, Vy, n covers from s: those of the sprite at the coordinates in Vx and Vy. -/
abbrev DrawCovers (s : State) (x y n : Nibble) (px py : Nat) : Prop :=
  spriteCovers s (s.getV x).toNat (s.getV y).toNat n.toNat px py

/-- One of the covered pixels is set. -/
abbrev DrawCollides (s : State) (x y n : Nibble) : Prop :=
  ∃ px py, DrawCovers s x y n px py ∧ s.pixel px py = true

/-- The two facts of `drawSprite_spec`, of the state that DRW leaves. -/
theorem exec_draw_spec (h : exec (.draw x y n) s = .next t) :
    (∀ px < 64, ∀ py < 32, (t.pixel px py = true ↔ ¬ (s.pixel px py = true ↔ DrawCovers s x y n px py))) ∧
    ∃ c, t.getV vf = flagByte c ∧ (c = true ↔ DrawCollides s x y n) := by
  have hn : n.toNat ≤ 32 := by have := n.isLt; omega
  obtain ⟨hpix, hflag⟩ := drawSprite_spec s (s.getV x).toNat (s.getV y).toNat hn
  simp only [rowsCover_iff] at hpix hflag
  cases h
  exact ⟨hpix, _, State.getV_setV_same _ vf _, hflag⟩

theorem pixel_of_drawCovers (h : exec (.draw x y n) s = .next t) (hpx : px < 64) (hpy : py < 32)
    (hc : DrawCovers s x y n px py) : t.pixel px py = !s.pixel px py := by
  rw [Bool.eq_iff_iff, (exec_draw_spec h).1 px hpx py hpy]
  simp [hc]

theorem pixel_of_not_drawCovers (h : exec (.draw x y n) s = .next t) (hpx : px < 64) (hpy : py < 32)
    (hc : ¬ DrawCovers s x y n px py) : t.pixel px py = s.pixel px py := by
  rw [Bool.eq_iff_iff, (exec_draw_spec h).1 px hpx py hpy]
  simp [hc]

theorem getV_vf_of_drawCollides (h : exec (.draw x y n) s = .next t) (hc : DrawCollides s x y n) :
    t.getV vf = 1#8 := by
  obtain ⟨-, c, hvf, hiff⟩ := exec_draw_spec h
  rw [hvf, hiff.mpr hc]; rfl

theorem getV_vf_of_not_drawCollides (h : exec (.draw x y n) s = .next t) (hc : ¬ DrawCollides s x y n) :
    t.getV vf = 0#8 := by
  obtain ⟨-, c, hvf, hiff⟩ := exec_draw_spec h
  rw [hvf, Bool.eq_false_iff.mpr (mt hiff.mp hc)]; rfl

/-- Settles O28: the pixels and the flag by `exec_draw_spec`, what stays by the frame and the writes of R23. -/
theorem drawInvertsCoveredPixels : Obligations.DrawInvertsCoveredPixels := by
  unfold Obligations.DrawInvertsCoveredPixels
  intro s x y n
  obtain ⟨t, h⟩ : ∃ t, exec (.draw x y n) s = .next t := ⟨_, rfl⟩
  have hpc : t.pc.toNat = (s.pc.toNat + 2) % 4096 := by cases h; exact pcAdd_toNat s.pc 2
  exact ⟨decode_encode (i := .draw x y n) rfl, t, h,
    fun _ hpx _ hpy => ⟨pixel_of_drawCovers h hpx hpy, pixel_of_not_drawCovers h hpx hpy⟩,
    getV_vf_of_drawCollides h, getV_vf_of_not_drawCollides h,
    fun k hk => registerWritesFollowTheMatrix _ s t k h hk, hpc, exec_changesOnly h⟩

/-! ### Drawing twice -/

theorem lt_of_spriteCovers {xs ys m : Nat} (h : spriteCovers s xs ys m px py) : px < 64 ∧ py < 32 := by
  obtain ⟨row, col, -, -, -, rfl, rfl⟩ := h
  exact ⟨Nat.mod_lt _ (by decide), Nat.mod_lt _ (by decide)⟩

/-- The covered pixels depend on I, on memory and on the two coordinates only. -/
theorem drawCovers_congr (hi : t.i = s.i) (hmem : ∀ a, t.readByte a = s.readByte a) (hx : t.getV x = s.getV x)
    (hy : t.getV y = s.getV y) : DrawCovers t x y n px py ↔ DrawCovers s x y n px py := by
  simp only [DrawCovers, spriteCovers, hi, hmem, hx, hy]

/-- Settles O29: each covered pixel is inverted twice; one that was 0 is set when the second draw meets it. -/
theorem drawingTwiceRestoresTheScreen : Obligations.DrawingTwiceRestoresTheScreen := by
  unfold Obligations.DrawingTwiceRestoresTheScreen
  intro s x y n
  obtain ⟨t, h⟩ : ∃ t, exec (.draw x y n) s = .next t := ⟨_, rfl⟩
  refine ⟨t, h, fun t' hpix hi hmem hx hy => ?_⟩
  obtain ⟨u, h'⟩ : ∃ u, exec (.draw x y n) t' = .next u := ⟨_, rfl⟩
  have hcov (px py : Nat) : DrawCovers t' x y n px py ↔ DrawCovers s x y n px py := drawCovers_congr hi hmem hx hy
  have hsame (px py : Nat) : t'.pixel px py = t.pixel px py := by rw [State.pixel, State.pixel, hpix]
  refine ⟨u, h', pix_ext fun px hpx py hpy => ?restored, fun hclear => ⟨?noCollision, ?collision⟩⟩
  case restored =>
    change u.pixel px py = s.pixel px py
    by_cases hc : DrawCovers s x y n px py
    · rw [pixel_of_drawCovers h' hpx hpy ((hcov px py).mpr hc), hsame, pixel_of_drawCovers h hpx hpy hc, Bool.not_not]
    · rw [pixel_of_not_drawCovers h' hpx hpy (mt (hcov px py).mp hc), hsame, pixel_of_not_drawCovers h hpx hpy hc]
  case noCollision =>
    refine getV_vf_of_not_drawCollides h ?_
    rintro ⟨px, py, hc, hset⟩
    exact Bool.false_ne_true ((hclear px py hc).symm.trans hset)
  case collision =>
    rintro ⟨px, py, hc⟩
    obtain ⟨hpx, hpy⟩ := lt_of_spriteCovers hc
    refine getV_vf_of_drawCollides h' ⟨px, py, (hcov px py).mpr hc, ?_⟩
    rw [hsame, pixel_of_drawCovers h hpx hpy hc, hclear px py hc, Bool.not_false]

end Sys2Proof.Machine
end

section
/-! Keys (44_keys_wait.md rules R150 to R153): the key that a register names, the newly pressed keys as the snapshots of
this STEP and the one before it give them, an equation for each outcome of the wait check, and a STEP during a wait. -/

namespace Sys2Proof.Machine

variable {ps : List Part} {s t s₀ : State} {x k : Nibble} {r : Byte}

/-! ### The key skips -/

theorem lowNibble_toNat (c : Byte) : (lowNibble c).toNat = c.toNat % 16 := by simp [lowNibble]

theorem State.keyOf_eq (s : State) (x : Nibble) : s.keyOf x = s.keys.getLsbD ((s.getV x).toNat % 16) := by
  rw [State.keyOf, State.keyDown, lowNibble_toNat]

/-- Settles O30: both are the skip rule, on the key that `State.keyOf` names and on its negation. -/
theorem keySkipsMovePc : Obligations.KeySkipsMovePc := by
  unfold Obligations.KeySkipsMovePc
  intro s x
  refine ⟨decode_encode (i := .skipKeyPressed x) rfl, decode_encode (i := .skipKeyNotPressed x) rfl, _, _, rfl, rfl,
    ?pressed, ?notPressed, (ChangesOnly.refl _ s).skipIf _, (ChangesOnly.refl _ s).skipIf _⟩
  case pressed => rw [State.skipIf_pc_toNat, State.keyOf_eq]
  case notPressed => simp only [State.skipIf_pc_toNat, State.keyOf_eq, Bool.not_eq_true']

/-! ### The newly pressed keys -/

theorem State.getLsbD_newKeys (s : State) (k : Nibble) :
    s.newKeys.getLsbD k.toNat = (s.keys.getLsbD k.toNat && !s.prevKeys.getLsbD k.toNat) := by
  rw [State.newKeys, BitVec.getLsbD_and, BitVec.getLsbD_not, decide_eq_true k.isLt, Bool.true_and]

theorem State.newKeys_pressed_iff (s : State) (k : Nibble) :
    s.newKeys.getLsbD k.toNat = true ↔ s.keys.getLsbD k.toNat = true ∧ s.prevKeys.getLsbD k.toNat = false := by
  rw [State.getLsbD_newKeys, Bool.and_eq_true, Bool.not_eq_true']

theorem State.newKeys_not_pressed_iff (s : State) (k : Nibble) :
    s.newKeys.getLsbD k.toNat = false ↔ (s.keys.getLsbD k.toNat = true → s.prevKeys.getLsbD k.toNat = true) := by
  rw [← Bool.not_eq_true, State.newKeys_pressed_iff, not_and, Bool.not_eq_false]

/-- A key that has been held since the STEP before is not newly pressed. -/
theorem State.newKeys_not_pressed_of_held (hheld : s.prevKeys = s.keys) (k : Nibble) :
    s.newKeys.getLsbD k.toNat = false :=
  (s.newKeys_not_pressed_iff k).mpr fun h => hheld ▸ h

theorem ChangesOnly.newKeys (h : ChangesOnly ps s t) (hkeys : .keys ∉ ps) (hprev : .prevKeys ∉ ps) :
    t.newKeys = s.newKeys := by
  rw [State.newKeys, State.newKeys, h.keys hkeys, h.prevKeys hprev]

/-! ### The two outcomes of the wait check -/

theorem State.waitCheck_of_no_new_key (hno : ∀ k : Nibble, s.newKeys.getLsbD k.toNat = false) (x : Nibble) :
    s.waitCheck x = s := by
  rcases s.waitCheck_spec x with ⟨_, h⟩ | ⟨k, hk, hnew, _, _⟩
  · exact h
  · exact absurd (hno ⟨k, hk⟩) (by simpa using hnew)

/-- The lowest newly pressed key is one key only, so it is the one that the wait check stores. -/
theorem State.waitCheck_of_lowest_new_key (hk : s.newKeys.getLsbD k.toNat = true)
    (hlow : ∀ j : Nibble, j < k → s.newKeys.getLsbD j.toNat = false) (x : Nibble) :
    s.waitCheck x = ((s.setV x (zextNibble k)).setW none).advance := by
  rcases s.waitCheck_spec x with ⟨hno, _⟩ | ⟨m, hm, hnew, hbelow, h⟩
  · exact absurd (hno _ k.isLt) (by simpa using hk)
  · rcases Nat.lt_trichotomy m k.toNat with hlt | rfl | hgt
    · exact absurd (hlow ⟨m, hm⟩ hlt) (by simpa using hnew)
    · rw [h, regIndex_toNat]
    · exact absurd (hbelow _ hgt) (by simpa using hk)

/-! ### A STEP during a wait -/

theorem stepTransaction_of_wait (hw : s.w = some x) (r : Byte) :
    stepTransaction r s = .next ((s.beginStep r).waitCheck x).endStep := by
  rw [stepTransaction, stepBody_of_wait (s := s.beginStep r) hw, mapNext_next]

/-- With no key pressed since the STEP before, a STEP during a wait runs nothing between its start and its end. -/
theorem stepTransaction_of_held_keys (hw : s.w = some x) (hheld : s.prevKeys = s.keys) (r : Byte) :
    stepTransaction r s = .next (s.beginStep r).endStep := by
  rw [stepTransaction_of_wait hw,
    State.waitCheck_of_no_new_key (s := s.beginStep r) (State.newKeys_not_pressed_of_held hheld)]

theorem step_of_wait (hnext : nextTransaction s = (.step r, s₀)) (hw : s.w = some x) :
    step s = .next ((s₀.beginStep r).waitCheck x).endStep := by
  obtain ⟨hwait, -⟩ := beginStep_sees_wait_and_word hnext r
  rw [step_of_nextTransaction hnext, transact, stepTransaction_of_wait (s := s₀) (hwait.trans hw)]

theorem zextNibble_toNat (k : Nibble) : (zextNibble k).toNat = k.toNat :=
  BitVec.toNat_setWidth_of_le (by decide)

/-- Settles O9: `step_of_wait`, where the STEP under way sees the host's new keys, and the two outcomes of the wait
check. -/
theorem waitingStepChecksForANewKey : Obligations.WaitingStepChecksForANewKey := by
  unfold Obligations.WaitingStepChecksForANewKey
  intro s s₀ r x hnext hw
  have hstep := step_of_wait hnext hw
  have frame : ChangesOnly [.result, .r, .draws, .phase, .schedule] s (s₀.beginStep r) :=
    ((changesOnly_of_nextTransaction hnext).mono (by decide)).beginStep r
  have hresult : (s₀.beginStep r).result = .ok := rfl
  generalize s₀.beginStep r = u at hstep frame hresult
  have hnew : u.newKeys = s.newKeys := frame.newKeys (by decide) (by decide)
  have check := u.waitCheck_changesOnly x
  refine ⟨_, hstep, (check.keys (by decide)).trans (frame.keys (by decide)),
    (check.result (by decide)).trans hresult, fun hno => ?noNewKey, fun k hk hprev hlow => ?newKey⟩
  case noNewKey =>
    have hcheck : u.waitCheck x = u :=
      State.waitCheck_of_no_new_key (fun k => hnew ▸ (s.newKeys_not_pressed_iff k).mpr (hno k)) x
    rw [hcheck]
    exact (frame.mono (by decide)).endStep
  case newKey =>
    have hcheck : u.waitCheck x = ((u.setV x (zextNibble k)).setW none).advance :=
      State.waitCheck_of_lowest_new_key (hnew ▸ (s.newKeys_pressed_iff k).mpr ⟨hk, hprev⟩)
        (fun j hj => hnew ▸ (s.newKeys_not_pressed_iff j).mpr (hlow j hj)) x
    rw [hcheck]
    refine ⟨?value, fun j hj => ?others, rfl, ?pc, ?frame⟩
    case value => exact (congrArg BitVec.toNat (u.getV_setV_same x _)).trans (zextNibble_toNat k)
    case others => exact (State.getV_setV_of_ne hj _).trans (frame.v (by decide) j)
    case pc => rw [← frame.pc (by decide)]; exact pcAdd_toNat u.pc 2
    case frame => exact ((((frame.mono (by decide)).setV _ _).setW _).advance).endStep

/-- Settles O31: the STEP of Fx0A ends with prev_keys at the keys (R80), so the held ones are not new at the next STEP,
which looks at no word either; a TICK is the two countdowns. -/
theorem waitKeyParksThePc : Obligations.WaitKeyParksThePc := by
  unfold Obligations.WaitKeyParksThePc
  intro s x
  refine ⟨decode_encode (i := .waitKey x) rfl, ⟨_, rfl, rfl, (ChangesOnly.refl _ s).setW _⟩, fun r hw hi => ?_⟩
  refine ⟨_, stepTransaction_of_known hw hi r, rfl, rfl, rfl, fun r' m => ?step, fun n => ?tick⟩
  case step => exact ⟨_, stepTransaction_of_held_keys rfl rfl r', rfl, rfl, rfl, fun _ => rfl⟩
  case tick => exact ⟨_, rfl, rfl, countDown_toNat s.dt n, countDown_toNat s.st n⟩

end Sys2Proof.Machine
end

section
/-! The rules of I and of the memory instructions (45_index_memory.md rules R160 to R165): I as a number after its three
writes, and what a byte reads after the stores of Fx33 and Fx55. -/

namespace Sys2Proof.Machine

variable {s t : State} {x k : Nibble} {a : Nat}

/-! ### Writes of I -/

/-- A write of I, then Advance: what it leaves behind. -/
theorem State.setI_advance_spec (s : State) (a : Word) :
    (s.setI a).advance.pc.toNat = (s.pc.toNat + 2) % 4096 ∧ ChangesOnly [.i, .pc] s (s.setI a).advance :=
  ⟨pcAdd_toNat s.pc 2, ((ChangesOnly.refl _ s).setI a).advance⟩

theorem indexAdd_toNat (a : Word) (c : Byte) : (indexAdd a c).toNat = (a.toNat + c.toNat) % 65536 := by
  have hzext : (zextByte c).toNat = c.toNat := BitVec.toNat_setWidth_of_le (by decide)
  rw [indexAdd, BitVec.toNat_add, hzext]

theorem glyphAddr_toNat (c : Byte) : (glyphAddr c).toNat = c.toNat % 16 * 5 := by
  rw [glyphAddr, lowNibble_toNat, BitVec.toNat_ofNat]; omega

/-- Settles O33: one write of I, of nnn widened by zeros. -/
theorem loadIndexSetsI : Obligations.LoadIndexSetsI := by
  unfold Obligations.LoadIndexSetsI
  intro s nnn
  exact ⟨decode_encode (i := .loadIndex nnn) rfl, _, rfl, zextAddr_toNat nnn, s.setI_advance_spec _⟩

/-- Settles O34: one write of I, of a sum that wraps at 65536; 4096 divides 65536, so the addresses from it are those of
arithmetic mod 4096. -/
theorem addIndexWrapsAtSixteenBits : Obligations.AddIndexWrapsAtSixteenBits := by
  unfold Obligations.AddIndexWrapsAtSixteenBits
  intro s x
  have hsum := indexAdd_toNat s.i (s.getV x)
  refine ⟨decode_encode (i := .addIndex x) rfl, _, rfl, hsum, fun k => ?address, s.setI_advance_spec _⟩
  case address =>
    simp only [State.indexAddr, State.advance_i, State.setI_i, hsum, wrapAddr, Config.memSize]; omega

/-- Settles O35: one write of I, of the glyph of the low nibble (D9). -/
theorem loadFontPointsAtGlyph : Obligations.LoadFontPointsAtGlyph := by
  unfold Obligations.LoadFontPointsAtGlyph
  intro s x
  exact ⟨decode_encode (i := .loadFont x) rfl, _, rfl, glyphAddr_toNat _, s.setI_advance_spec _⟩

/-! ### The addresses from I, and Advance -/

@[simp] theorem State.wrapAddr_indexAddr (s : State) (k : Nat) : wrapAddr (s.indexAddr k) = s.indexAddr k :=
  wrapAddr_wrapAddr _

/-- Two addresses from I, less than the size of memory apart, are not the same (R52). -/
theorem State.indexAddr_ne_of_lt (s : State) {j k : Nat} (hjk : j < k) (hk : k < 4096) :
    s.indexAddr j ≠ s.indexAddr k := by
  simp only [State.indexAddr, wrapAddr, Config.memSize]; omega

theorem wrapAddr_of_lt (ha : a < 4096) : wrapAddr a = a := Nat.mod_eq_of_lt ha

/-- An instruction that goes nowhere else advances (R25). -/
theorem exec_pc_toNat {i : Instr} (h : exec i s = .next t) (hstay : ¬ mayGoTo s i t.pc) :
    t.pc.toNat = (s.pc.toNat + 2) % 4096 := by
  rw [(exec_pc h).resolve_right hstay, pcAdd_toNat]

/-! ### LD B, Vx -/

theorem bcdHundreds_toNat (c : Byte) : (bcdHundreds c).toNat = c.toNat / 100 := by
  have := c.isLt
  rw [bcdHundreds, BitVec.toNat_ofNat]; omega

theorem bcdTens_toNat (c : Byte) : (bcdTens c).toNat = c.toNat / 10 % 10 := by
  rw [bcdTens, BitVec.toNat_ofNat]; omega

theorem bcdOnes_toNat (c : Byte) : (bcdOnes c).toNat = c.toNat % 10 := by
  rw [bcdOnes, BitVec.toNat_ofNat]; omega

/-- One spec for memory after LD B, Vx: its last write comes first (R57, R163). -/
theorem readByte_of_storeBcd (hs : s.mem.wf) (h : exec (.storeBcd x) s = .next t) (a : Nat) :
    t.readByte a =
      if wrapAddr a = s.indexAddr 2 then bcdOnes (s.getV x)
      else if wrapAddr a = s.indexAddr 1 then bcdTens (s.getV x)
      else if wrapAddr a = s.indexAddr 0 then bcdHundreds (s.getV x)
      else s.readByte a := by
  cases h
  have hs₁ := State.writeByte_wf hs (s.indexAddr 0) (bcdHundreds (s.getV x))
  have hs₂ := State.writeByte_wf hs₁ (s.indexAddr 1) (bcdTens (s.getV x))
  rw [State.advance_readByte, State.readByte_writeByte hs₂, State.readByte_writeByte hs₁, State.readByte_writeByte hs]
  simp only [State.wrapAddr_indexAddr]

/-- Settles O36: `readByte_of_storeBcd` at the three addresses, which are distinct, and at every other one. -/
theorem storeBcdWritesThreeDigits : Obligations.StoreBcdWritesThreeDigits := by
  unfold Obligations.StoreBcdWritesThreeDigits
  intro s x hs
  obtain ⟨t, h⟩ : ∃ t, exec (.storeBcd x) s = .next t := ⟨_, rfl⟩
  have hread := readByte_of_storeBcd hs h
  have h₀₁ : s.indexAddr 0 ≠ s.indexAddr 1 := s.indexAddr_ne_of_lt (by decide) (by decide)
  have h₀₂ : s.indexAddr 0 ≠ s.indexAddr 2 := s.indexAddr_ne_of_lt (by decide) (by decide)
  have h₁₂ : s.indexAddr 1 ≠ s.indexAddr 2 := s.indexAddr_ne_of_lt (by decide) (by decide)
  refine ⟨decode_encode (i := .storeBcd x) rfl, t, h, ?hundreds, ?tens, ?ones, fun a ha ha₀ ha₁ ha₂ => ?others,
    fun k _ => rfl, exec_pc_toNat h id, exec_changesOnly h⟩
  case hundreds =>
    rw [hread, State.wrapAddr_indexAddr, if_neg h₀₂, if_neg h₀₁, if_pos rfl, bcdHundreds_toNat]
  case tens => rw [hread, State.wrapAddr_indexAddr, if_neg h₁₂, if_pos rfl, bcdTens_toNat]
  case ones => rw [hread, State.wrapAddr_indexAddr, if_pos rfl, bcdOnes_toNat]
  case others => rw [hread, wrapAddr_of_lt ha, if_neg ha₂, if_neg ha₁, if_neg ha₀]

/-! ### LD [I], Vx and LD Vx, [I] -/

/-- LD [I], Vx leaves every byte alone that is not one of the I + k, for k up to x (R164). -/
theorem readByte_of_storeRegs_of_ne (hs : s.mem.wf) (h : exec (.storeRegs x) s = .next t)
    (ha : ∀ k : Nibble, k ≤ x → wrapAddr a ≠ s.indexAddr k.toNat) : t.readByte a = s.readByte a := by
  cases h
  refine (State.readByte_storeUpTo hs (n := x.toNat + 1) (by omega)).2 a fun j hj => ?_
  have hj16 : j < 16 := by omega
  exact ha ⟨j, hj16⟩ (Nat.le_of_lt_succ hj)

/-- Settles O37: the stored bytes by `readByte_indexAddr_of_storeRegs`, the others by `readByte_of_storeRegs_of_ne`. -/
theorem storeRegsWritesV0ToVx : Obligations.StoreRegsWritesV0ToVx := by
  unfold Obligations.StoreRegsWritesV0ToVx
  intro s x hs
  obtain ⟨t, h⟩ : ∃ t, exec (.storeRegs x) s = .next t := ⟨_, rfl⟩
  refine ⟨decode_encode (i := .storeRegs x) rfl, t, h,
    fun k hk => ⟨rfl, readByte_indexAddr_of_storeRegs hs h hk⟩, fun a ha hne => ?others, exec_pc_toNat h id,
    exec_changesOnly h⟩
  case others => exact readByte_of_storeRegs_of_ne hs h ((wrapAddr_of_lt ha).symm ▸ hne)

/-- Settles O38: the loaded registers by `getV_of_loadRegs`; those above x are not among the writes of R23. -/
theorem loadRegsReadsV0ToVx : Obligations.LoadRegsReadsV0ToVx := by
  unfold Obligations.LoadRegsReadsV0ToVx
  intro s x
  obtain ⟨t, h⟩ : ∃ t, exec (.loadRegs x) s = .next t := ⟨_, rfl⟩
  exact ⟨decode_encode (i := .loadRegs x) rfl, t, h, fun k hk => getV_of_loadRegs h hk,
    fun k hk => registerWritesFollowTheMatrix _ s t k h (Nat.not_le_of_lt hk), exec_pc_toNat h id,
    exec_changesOnly h⟩

end Sys2Proof.Machine
end

section
/-! The rules of the timers (46_timers.md rules R170 to R173): the three moves between a timer and a register, and TICK,
which counts both timers down in every state. -/

namespace Sys2Proof.Machine

variable {s : State}

/-! ### TICK -/

/-- One countdown after another is one countdown of their sum, where the sum fits in R42's 32 bits. -/
theorem countDown_countDown (c : Byte) {m n : BitVec 32} (hsum : m.toNat + n.toNat < 2 ^ 32) :
    countDown (countDown c m) n = countDown c (m + n) := by
  apply BitVec.eq_of_toNat_eq
  simp only [countDown_toNat, BitVec.toNat_add_of_lt hsum, Nat.sub_sub]

/-- Settles O45: a TICK counts each timer down on its own, so `countDown_countDown` joins the two of each timer. -/
theorem ticksAddUp : Obligations.TicksAddUp := by
  unfold Obligations.TicksAddUp
  intro s m n hsum
  refine ⟨_, _, rfl, rfl, ?_⟩
  rw [tickTransaction, ← countDown_countDown s.dt hsum, ← countDown_countDown s.st hsum]
  rfl

theorem nextTransaction_of_cons {a : Transaction} {rest : List Transaction} (h : s.schedule = a :: rest) :
    nextTransaction s = (a, { s with schedule := rest }) := by
  rw [nextTransaction, h]

/-- Settles O44: the TICK is taken off the schedule and runs as the two countdowns, with no look at the wait. -/
theorem tickCountsBothTimersDown : Obligations.TickCountsBothTimersDown := by
  unfold Obligations.TickCountsBothTimersDown
  intro s n rest hsched
  have frame : ChangesOnly [.dt, .st, .schedule] s { s with schedule := rest } :=
    { ChangesOnly.refl _ s with schedule := fun hn => absurd (by decide) hn }
  exact ⟨_, step_of_nextTransaction (nextTransaction_of_cons hsched), rfl, countDown_toNat s.dt n,
    countDown_toNat s.st n, (frame.setDt _).setSt _⟩

/-! ### The moves between a timer and a register -/

/-- Settles O42: Fx07 is one write of Vx, Fx15 one write of DT. -/
theorem delayInstructionsMoveBytes : Obligations.DelayInstructionsMoveBytes := by
  unfold Obligations.DelayInstructionsMoveBytes
  intro s x
  refine ⟨decode_encode (i := .loadDelay x) rfl, decode_encode (i := .setDelay x) rfl, ⟨_, rfl, ?load⟩,
    ⟨_, rfl, rfl, ?setPc, ?setFrame⟩⟩
  case load => exact s.setV_advance_spec x s.dt
  case setPc => exact pcAdd_toNat s.pc 2
  case setFrame => exact ((ChangesOnly.refl _ s).setDt _).advance

/-- SOUND is on exactly while ST is not 0 (R45, D18). -/
theorem State.sound_iff (s : State) : s.sound = true ↔ s.st ≠ 0#8 := bne_iff_ne

/-- Settles O43: Fx18 is one write of ST, and SOUND reads ST. -/
theorem setSoundSetsStAndSound : Obligations.SetSoundSetsStAndSound := by
  unfold Obligations.SetSoundSetsStAndSound
  intro s x
  exact ⟨decode_encode (i := .setSound x) rfl, _, rfl, rfl, State.sound_iff _, pcAdd_toNat s.pc 2,
    ((ChangesOnly.refl _ s).setSt _).advance⟩

end Sys2Proof.Machine
end

section
/-! The block never stops by itself (60_exceptions.md rules R201 and R202, 70_reset_and_hazards.md rules R236, R238 and
R240): within the invariant every instruction completes, and a transaction that the host's duty allows completes and
leaves the rest of the schedule dutiful. -/

namespace Sys2Proof.Machine

variable {s t : State}

/-! ### Every STEP completes -/

/-- With sp in its range no instruction stops the block: a stack error is a result (R201, R202). -/
theorem exec_completes (hsp : s.sp.toNat ≤ 16) (i : Instr) : ∃ t, exec i s = .next t := by
  cases i
  case call nnn =>
    rcases Nat.lt_or_eq_of_le hsp with hroom | hfull
    · exact ⟨_, execCall_of_lt hroom nnn⟩
    · exact ⟨_, execCall_of_full hfull nnn⟩
  case ret =>
    rcases Nat.eq_zero_or_pos s.sp.toNat with hempty | hpos
    · exact ⟨_, execRet_of_empty hempty⟩
    · exact ⟨_, execRet_of_pos hpos hsp⟩
  all_goals exact ⟨_, rfl⟩

theorem stepBody_completes (hsp : s.sp.toNat ≤ 16) : ∃ t, stepBody s = .next t := by
  cases hw : s.w with
  | some x => exact ⟨_, stepBody_of_wait hw⟩
  | none =>
    cases hd : decode s.fetchWord with
    | unknown op => exact ⟨_, stepBody_of_unknown hw hd⟩
    | known i => rw [stepBody_of_known hw hd]; exact exec_completes hsp i

theorem stepTransaction_completes (hsp : s.sp.toNat ≤ 16) (r : Byte) : ∃ t, stepTransaction r s = .next t := by
  obtain ⟨u, hu⟩ := stepBody_completes (s := s.beginStep r) hsp
  exact ⟨u.endStep, congrArg (mapNext State.endStep) hu⟩

/-- A STEP ends the time for a LOAD and takes nothing off the schedule (R236). -/
theorem stepTransaction_phase_schedule {r : Byte} (h : stepTransaction r s = .next t) :
    t.phase = .started ∧ t.schedule = s.schedule := by
  rcases stepTransaction_cases h with ⟨x, _, rfl⟩ | ⟨op, _, _, rfl⟩ | ⟨i, u, _, _, hu, rfl⟩
  · have frame := (s.beginStep r).waitCheck_changesOnly x
    exact ⟨frame.phase (by decide), frame.schedule (by decide)⟩
  · exact ⟨rfl, rfl⟩
  · have frame := exec_changesOnly hu
    exact ⟨frame.phase (not_mem_writtenParts_of_interface _ (by decide)),
      frame.schedule (not_mem_writtenParts_of_interface _ (by decide))⟩

/-! ### The host's duty -/

theorem dutiful_load_cons {p : BootPhase} {image : List Byte} {rest : List Transaction}
    (h : dutiful p (.load image :: rest) = true) :
    p = .awaitingLoad ∧ image.length ≤ 3584 ∧ dutiful .started rest = true := by
  cases p with
  | awaitingLoad => simpa [dutiful] using h
  | started => simp [dutiful] at h

theorem loadTransaction_of_fits {image : List Byte} (hp : s.phase = .awaitingLoad) (hlen : image.length ≤ 3584) :
    loadTransaction image s = .next { s.writeBytes 0x200 image with phase := .started } := by
  rw [loadTransaction, hp]
  exact if_pos hlen

/-- The transaction taken off a dutiful schedule comes at the head of one: an empty schedule stands for a STEP (R47). -/
theorem dutiful_nextTransaction (h : dutiful s.phase s.schedule = true) :
    dutiful (nextTransaction s).2.phase ((nextTransaction s).1 :: (nextTransaction s).2.schedule) = true := by
  rcases nextTransaction_spec s with ⟨a, rest, hsched, hnext⟩ | ⟨hsched, hnext⟩ <;> rw [hnext]
  · rwa [hsched] at h
  · simp [hsched, dutiful]

/-- A transaction that the duty allows completes, and the duty holds of what comes after it (R236, R240). -/
theorem transact_completes (hsp : s.sp.toNat ≤ 16) {a : Transaction}
    (hduty : dutiful s.phase (a :: s.schedule) = true) :
    ∃ t, transact a s = .next t ∧ dutiful t.phase t.schedule = true := by
  cases a with
  | step r =>
    obtain ⟨t, ht⟩ := stepTransaction_completes hsp r
    obtain ⟨hphase, hsched⟩ := stepTransaction_phase_schedule ht
    refine ⟨t, ht, ?_⟩
    rw [hphase, hsched]
    simpa [dutiful] using hduty
  | tick n => exact ⟨_, rfl, by simpa [dutiful] using hduty⟩
  | keys k => exact ⟨_, rfl, by simpa [dutiful] using hduty⟩
  | load image =>
    obtain ⟨hphase, hlen, hrest⟩ := dutiful_load_cons hduty
    refine ⟨_, loadTransaction_of_fits hphase hlen, ?_⟩
    rw [State.writeBytes_eq]
    exact hrest

/-- Settles O52: the next transaction completes and leaves a dutiful schedule, and every step keeps the invariant. -/
theorem safeStepsNeverStop : Obligations.SafeStepsNeverStop := by
  unfold Obligations.SafeStepsNeverStop
  intro s hs
  obtain ⟨t, ht, hduty⟩ :=
    transact_completes hs.inv.nextTransaction.spInRange (dutiful_nextTransaction hs.duty)
  exact ⟨t, ht, everyStepKeepsTheInvariant s t hs.inv ht, hduty⟩

end Sys2Proof.Machine
end

section
/-! A stack error repeats (60_exceptions.md rule R206): it leaves everything that made it as it was, and nothing
that the host may do next touches any of that either. -/

namespace Sys2Proof.Machine

variable {ps : List Part} {s t : State} {i : Instr} {e : Word → StepResult}

theorem ChangesOnly.setKeys (h : ChangesOnly ps s t) (k : BitVec 16) (hp : .keys ∈ ps := by decide) :
    ChangesOnly ps s (t.setKeys k) :=
  { h with keys := fun hn => absurd hp hn }

/-- Once the block is started, a STEP begins without a change of the phase. -/
theorem ChangesOnly.beginStep_of_started (h : ChangesOnly ps s t) (hphase : s.phase = .started) (r : Byte)
    (hr : .r ∈ ps := by decide) (hresult : .result ∈ ps := by decide) : ChangesOnly ps s (t.beginStep r) :=
  { h with
    r := fun hn => absurd hr hn, result := fun hn => absurd hresult hn, phase := fun _ => hphase.symm }

/-- With the stack pointer of s, instruction i does nothing but report the error e of its own address. -/
def StackErrorOn (s : State) (i : Instr) (e : Word → StepResult) : Prop :=
  ∀ u : State, u.sp = s.sp → exec i u = .next (u.raise (e u.pc))

theorem stackErrorOn_call (hfull : s.sp.toNat = 16) (nnn : Addr) : StackErrorOn s (.call nnn) .stackOverflow :=
  fun _ hsp => execCall_of_full (hsp ▸ hfull) nnn

theorem stackErrorOn_ret (hempty : s.sp.toNat = 0) : StackErrorOn s .ret .stackUnderflow :=
  fun _ hsp => execRet_of_empty (hsp ▸ hempty)

/-- The parts that can change while an instruction at pc fails for want of stack: what the host's transactions write,
and the result port. -/
def partsOfStackError : List Part := [.keys, .dt, .st, .prevKeys, .result, .r, .draws, .schedule]

/-- One transaction with a failing instruction at pc: what each kind leaves unchanged, and the error that a STEP reports.
A LOAD does not complete once the block is started. -/
theorem step_of_stackError (herr : StackErrorOn s i e) (hphase : s.phase = .started) (hw : s.w = none)
    (hi : decode s.fetchWord = .known i) (h : step s = .next t) :
    ChangesOnly partsOfStackError s t ∧ ((∃ r, (nextTransaction s).1 = .step r) → t.result = e s.pc) := by
  rcases hnext : nextTransaction s with ⟨a, s₀⟩
  have taken := changesOnly_of_nextTransaction hnext
  have frame : ChangesOnly partsOfStackError s s₀ := taken.mono (by decide)
  have hrun : transact a s₀ = .next t := (step_of_nextTransaction hnext).symm.trans h
  cases a with
  | step r =>
    rw [step_of_known hnext hw hi, herr (s₀.beginStep r) (taken.sp (by decide))] at h
    cases h
    exact ⟨((frame.beginStep_of_started hphase r).raise _).endStep, fun _ => congrArg e (taken.pc (by decide))⟩
  | tick n => cases hrun; exact ⟨(frame.setDt _).setSt _, fun ⟨_, hr⟩ => by cases hr⟩
  | keys k => cases hrun; exact ⟨frame.setKeys k, fun ⟨_, hr⟩ => by cases hr⟩
  | load image =>
    obtain ⟨hawaiting, -, -⟩ := loadTransaction_cases hrun
    have hstarted : s₀.phase = .started := (taken.phase (by decide)).trans hphase
    cases hstarted.symm.trans hawaiting

/-- Settles O18: both errors by `step_of_stackError`, whose frame holds neither pc nor memory, so the next fetch reads
the same word. -/
theorem stackErrorsRepeat : Obligations.StackErrorsRepeat := by
  unfold Obligations.StackErrorsRepeat
  intro s t hphase hw h
  refine ⟨fun ⟨⟨nnn, hi⟩, hfull⟩ => ?overflow, fun ⟨hi, hempty⟩ => ?underflow⟩
  case overflow =>
    obtain ⟨frame, hresult⟩ := step_of_stackError (stackErrorOn_call hfull nnn) hphase hw hi h
    exact ⟨frame, frame.fetchWord (by decide) (by decide), hresult⟩
  case underflow =>
    obtain ⟨frame, hresult⟩ := step_of_stackError (stackErrorOn_ret hempty) hphase hw hi h
    exact ⟨frame, frame.fetchWord (by decide) (by decide), hresult⟩

end Sys2Proof.Machine
end

section
/-! LOAD in the boot sequence (70_reset_and_hazards.md rules R235 and R236, 60_exceptions.md rule R203): the two ways in
which it stops, and what the loaded state holds. -/

namespace Sys2Proof.Machine

variable {s : State} {image : List Byte}

/-- A transaction on the schedule is the next one to run (R47). -/
theorem step_of_scheduled {a : Transaction} {rest : List Transaction} (h : s.schedule = a :: rest) :
    step s = transact a { s with schedule := rest } :=
  step_of_nextTransaction (nextTransaction_of_cons h)

theorem loadTransaction_of_too_large (hp : s.phase = .awaitingLoad) (hlen : 3584 < image.length) :
    loadTransaction image s = .fault .romTooLarge := by
  rw [loadTransaction, hp]
  exact if_neg (Nat.not_le_of_lt hlen)

theorem loadTransaction_of_started (hp : s.phase = .started) :
    loadTransaction image s = .refused .loadOutOfSequence := by
  rw [loadTransaction, hp]

/-- Memory in the program area and outside it after a write of at most 3584 bytes at 0x200 (R236). -/
theorem State.readByte_writeBytes_progStart (hwf : s.mem.wf) (hlen : image.length ≤ 3584) :
    (∀ j, (h : j < image.length) → (s.writeBytes 0x200 image).readByte (0x200 + j) = image[j]) ∧
    ∀ a < 4096, a < 0x200 ∨ 0x200 + image.length ≤ a → (s.writeBytes 0x200 image).readByte a = s.readByte a := by
  refine ⟨fun j h => ?inside, fun a ha hout => ?outside⟩
  case inside =>
    rw [State.readByte_writeBytes hwf 0x200 image (by omega) (by omega), dif_pos (by omega)]
    simp only [Nat.add_sub_cancel_left]
  case outside =>
    rw [State.readByte_writeBytes hwf 0x200 image (by omega) ha, dif_neg (by omega)]

/-- All that a LOAD of an image that fits does, in its place: the image at 0x200, the phase, and the frame (R236). -/
theorem loadTransaction_fits_spec (hp : s.phase = .awaitingLoad) (hwf : s.mem.wf) (hlen : image.length ≤ 3584) :
    ∃ t, loadTransaction image s = .next t ∧ (∀ j, (h : j < image.length) → t.readByte (0x200 + j) = image[j]) ∧
      (∀ a < 4096, a < 0x200 ∨ 0x200 + image.length ≤ a → t.readByte a = s.readByte a) ∧
      t.phase = .started ∧ ChangesOnly [.mem, .phase] s t := by
  obtain ⟨hinside, houtside⟩ := State.readByte_writeBytes_progStart hwf hlen
  have hload := loadTransaction_of_fits hp hlen
  exact ⟨_, hload, hinside, houtside, rfl, loadTransaction_changesOnly hload⟩

/-- Settles O49: the LOAD at the head of the schedule runs at once, and its phase and length decide between the three
answers. -/
theorem loadCopiesTheImageOnce : Obligations.LoadCopiesTheImageOnce := by
  unfold Obligations.LoadCopiesTheImageOnce
  intro s image rest hsched
  have taken : ChangesOnly [.mem, .phase, .schedule] s { s with schedule := rest } :=
    { ChangesOnly.refl _ s with schedule := fun hn => absurd (by decide) hn }
  rw [step_of_scheduled hsched, transact]
  refine ⟨fun hphase hwf hlen => ?fits, fun hphase hlen => ?tooLarge, fun hphase => ?started⟩
  case fits =>
    obtain ⟨t, hload, hinside, houtside, hstarted, frame⟩ :=
      loadTransaction_fits_spec (s := { s with schedule := rest }) hphase hwf hlen
    exact ⟨t, hload, hinside, houtside, hstarted, frame.schedule (by decide), taken.trans (frame.mono (by decide))⟩
  case tooLarge => exact loadTransaction_of_too_large hphase hlen
  case started => exact loadTransaction_of_started hphase

end Sys2Proof.Machine
end

section
/-! Runs of the core (70_reset_and_hazards.md rule R238): what every step answers and keeps, every run does. -/

namespace Sys2Proof.Machine

variable {M : Host.Core}

theorem run_succ_of_step {s t : M.State} (h : M.step s = .next t) (n : Nat) : M.run (n + 1) s = M.run n t := by
  rw [Host.Core.run, h]

/-- The induction over the length of a run: a property from which every step goes on, and which it keeps, is one from
which every run goes on. -/
theorem run_of_step_invariant {P : M.State → Prop} (hstep : ∀ s, P s → ∃ t, M.step s = .next t ∧ P t) (n : Nat) :
    ∀ s, P s → ∃ t, M.run n s = .next t ∧ P t := by
  induction n with
  | zero => exact fun s hs => ⟨s, rfl, hs⟩
  | succ n ih =>
    intro s hs
    obtain ⟨u, hu, hPu⟩ := hstep s hs
    rw [run_succ_of_step hu]
    exact ih u hPu

/-- Settles O53: the induction over runs, with `safeStepsNeverStop` for each step. -/
theorem safeRunsNeverStop : Obligations.SafeRunsNeverStop :=
  run_of_step_invariant (M := core) safeStepsNeverStop

end Sys2Proof.Machine
end
